-- ==== Sys2Proof/Word.lean ====
section
/-! DEFINITION. The word types of the block: a command word, a frame, a Reading (spec/00_scope.md R6, R7;
spec/30_encoding.md R70, R79). -/

namespace Sys2Proof

/-- A host command word `cmd[15:0]`, format `CMD16` (R70). -/
abbrev Word := BitVec 16

/-- The 32 bits a converter chip shifts out for one read, first bit most significant (R79). -/
abbrev Frame := BitVec 32

/-- A temperature in degrees Celsius or a sentinel: a rational, computed exactly (R6). -/
abbrev Reading := Rat

/-- The levels of the data input lines at one sample instant: bit `l` is `D[l]`. No instance has more than 16
lines (R28); the bits at and above `N_LINES` are wired to nothing and never looked at. -/
abbrev LineLevels := BitVec 16

end Sys2Proof
end

