-- ==== Sys2Proof/Config.lean ====
section
/-! DEFINITION. The configuration record of spec/00_scope.md R5 (plain data, carried by State in its field `cfg`,
which no step writes) and the free values: opaque constants that nothing in Lean can evaluate. -/

namespace Sys2Proof

/-- The two chip topologies of the bus (R5, R124). -/
inductive Topology where
  | addressMultiplexed
  | chipSelectPerChannel
deriving DecidableEq, Repr

/-- The implementation parameters of one instance (R5, R24), constants of the instance. `READING_FMT` is not a field:
it is `Config.readingFmt`, built from two free values below and applied at the response port only (R78). -/
structure Config where
  /-- `TOPOLOGY` -/
  topology : Topology
  /-- `HUB_COUNT`, only read when the topology is address multiplexed -/
  hubCount : Nat
  /-- `ADDRESS_COUNT`, only read when the topology is address multiplexed -/
  addressCount : Nat
  /-- `FAULT_OPEN` -/
  faultOpen : Reading
  /-- `FAULT_SHORT_TO_GROUND` -/
  faultShortToGround : Reading
  /-- `FAULT_SHORT_TO_SUPPLY` -/
  faultShortToSupply : Reading
  /-- `UNINITIALIZED` -/
  uninitialized : Reading
  /-- `JUNCTION_OUT_OF_RANGE` -/
  junctionOutOfRange : Reading
  /-- `UNTYPED_FAULT` (R92): any rational, nothing is assumed of it -/
  untypedFault : Reading
  /-- `T_TICK` in nanoseconds -/
  tTickNs : Rat
deriving DecidableEq, Repr

/-- FREE VALUE (log 4): the `UNTYPED_FAULT` of the instance that `State.reset` is. R92: "The spec does not choose its
value". -/
opaque Config.freeUntypedFault : Reading

/-- FREE VALUE (log 3): what the environment puts on the data lines at sample instant `n`, once the script of State
holds no more levels. R12: the data lines are free inputs. -/
opaque Config.freeSample : Nat → LineLevels

/-- FREE VALUE (log 7), part of `READING_FMT`: which code, as a number, the instance's format gives to the `k`-th Reading
that it must represent exactly. A permutation: two such Readings never share a code (R78). -/
opaque Config.freeReadingCode : Config → Equiv.Perm Nat

/-- FREE VALUE (log 7), part of `READING_FMT`: the code of a Reading that the format need not represent. R78: "how it
rounds a value it cannot represent" is "part of the open parameter". -/
opaque Config.freeInexactCode : Config → Reading → Nat

/-- FREE VALUE (log 8): `resp_ok` in a tick with `resp_valid = 0` (U13). -/
opaque Config.freeRespOk : Nat → Bool

/-- FREE VALUE (log 8): whether `resp_kind` is `COUNT`, where R74 or U13 leaves it unspecified. -/
opaque Config.freeRespKindIsCount : Nat → Bool

/-- FREE VALUE (log 8): `resp_value` where R74 or U13 leaves it unspecified. -/
opaque Config.freeRespValue : Nat → Nat

end Sys2Proof
end

