-- ==== Sys2Proof/Syntax.lean ====
section
/-! DEFINITION. The host commands, one constructor per row of spec/opcode_table.json (spec/30_encoding.md R72, R73). -/

namespace Sys2Proof

/-- A command with its operands (R72). `hub` and `ch` are the unsigned indices of R73; what fits the 4-bit fields is
`Instr.WellFormed`, what an instance has is checked by the meanings (R51, R74). -/
inductive Instr where
  /-- `SWEEP ow` (R116, R117) -/
  | sweep (ow : Bool)
  /-- `RDTC.C hub, ch` (R144) -/
  | rdtcC (hub ch : Nat)
  /-- `RDTC.F hub, ch` (R145) -/
  | rdtcF (hub ch : Nat)
  /-- `RDCJ.C hub, ch` (R146) -/
  | rdcjC (hub ch : Nat)
  /-- `RDCJ.F hub, ch` (R147) -/
  | rdcjF (hub ch : Nat)
  /-- `AVGCJ.C hub` (R160) -/
  | avgcjC (hub : Nat)
  /-- `AVGCJ.F hub` (R163) -/
  | avgcjF (hub : Nat)
deriving DecidableEq, Repr

end Sys2Proof
end

