-- ==== Sys2Proof/WellFormed.lean ====
section
/-! DEFINITION. Which commands a command word can hold: the field widths of spec/30_encoding.md R70. -/

namespace Sys2Proof

/-- The operand fits a 4-bit field of `CMD16` (R70: "0..15"). -/
abbrev fitsField (n : Nat) : Prop := n < 16

/-- Every operand fits its field (R70, R71). Whether the instance has that hub and channel is no matter of form:
R74 (d), (e) refuse such a word when it is accepted. -/
abbrev Instr.WellFormed (i : Instr) : Prop :=
  match i with
  | .sweep _ => True
  | .rdtcC hub ch => fitsField hub ∧ fitsField ch
  | .rdtcF hub ch => fitsField hub ∧ fitsField ch
  | .rdcjC hub ch => fitsField hub ∧ fitsField ch
  | .rdcjF hub ch => fitsField hub ∧ fitsField ch
  | .avgcjC hub => fitsField hub
  | .avgcjF hub => fitsField hub

/-- `Instr.WellFormed` as a Bool. -/
def Instr.wellFormed (i : Instr) : Bool :=
  match i with
  | .sweep _ => true
  | .rdtcC hub ch => decide (fitsField hub) && decide (fitsField ch)
  | .rdtcF hub ch => decide (fitsField hub) && decide (fitsField ch)
  | .rdcjC hub ch => decide (fitsField hub) && decide (fitsField ch)
  | .rdcjF hub ch => decide (fitsField hub) && decide (fitsField ch)
  | .avgcjC hub => decide (fitsField hub)
  | .avgcjF hub => decide (fitsField hub)

theorem Instr.wellFormed_iff (i : Instr) : i.wellFormed = true ↔ i.WellFormed := by
  cases i <;> simp [Instr.wellFormed, Instr.WellFormed]

end Sys2Proof
end

