-- ==== Sys2Proof/Decode.lean ====
section
/-! DEFINITION. The command word: decoder (total, rejecting by name), the opcode table's mask and match rows, and the
encoder (spec/30_encoding.md R70 to R75). -/

namespace Sys2Proof

/-- Why a word spells no command (R74 (a) to (c)). -/
inductive RejectReason where
  /-- R74 (a): `op` is 0x0 or 0x8..0xF -/
  | reservedOpcode
  /-- R74 (b): `rsv` is not zero -/
  | reservedBits
  /-- R74 (c): a field the command does not use is not zero -/
  | unusedField
deriving DecidableEq, Repr

/-- What a command word is. -/
inductive Decoded where
  | ok (i : Instr)
  | reject (r : RejectReason)
deriving DecidableEq, Repr

/-- `op`, `hub`, `ch`, `rsv`, `ow` of a word (R70). -/
def opField (w : Word) : Nat := (w.extractLsb' 12 4).toNat
@[inherit_doc opField] def hubField (w : Word) : Nat := (w.extractLsb' 8 4).toNat
@[inherit_doc opField] def chField (w : Word) : Nat := (w.extractLsb' 4 4).toNat
@[inherit_doc opField] def rsvField (w : Word) : Nat := (w.extractLsb' 1 3).toNat
@[inherit_doc opField] def owField (w : Word) : Bool := w.getLsbD 0

/-- The command `i`, if every field it does not use (`unused`) is zero (R71). -/
def acceptIf (unusedIsZero : Bool) (i : Instr) : Decoded :=
  if unusedIsZero then .ok i else .reject .unusedField

/-- The decoder of `CMD16`, total on all words (R72 to R75). It knows no instance: the range checks R74 (d) and (e)
are the meanings'. -/
def decode (w : Word) : Decoded :=
  let hub := hubField w
  let ch := chField w
  let ow := owField w
  match opField w with
  | 1 => if rsvField w = 0 then acceptIf (hub == 0 && ch == 0) (.sweep ow) else .reject .reservedBits
  | 2 => if rsvField w = 0 then acceptIf (!ow) (.rdtcC hub ch) else .reject .reservedBits
  | 3 => if rsvField w = 0 then acceptIf (!ow) (.rdtcF hub ch) else .reject .reservedBits
  | 4 => if rsvField w = 0 then acceptIf (!ow) (.rdcjC hub ch) else .reject .reservedBits
  | 5 => if rsvField w = 0 then acceptIf (!ow) (.rdcjF hub ch) else .reject .reservedBits
  | 6 => if rsvField w = 0 then acceptIf (ch == 0 && !ow) (.avgcjC hub) else .reject .reservedBits
  | 7 => if rsvField w = 0 then acceptIf (ch == 0 && !ow) (.avgcjF hub) else .reject .reservedBits
  | _ => .reject .reservedOpcode

/-- One row of the opcode map (R72): a word spells the command if and only if `word &&& mask = value` (R71). -/
structure OpcodeRow where
  mnemonic : String
  mask : Word
  value : Word
deriving DecidableEq, Repr

/-- The opcode map of R72. -/
def opcodeTable : List OpcodeRow :=
  [ ⟨"SWEEP", 0xFFFE, 0x1000⟩,
    ⟨"RDTC.C", 0xF00F, 0x2000⟩,
    ⟨"RDTC.F", 0xF00F, 0x3000⟩,
    ⟨"RDCJ.C", 0xF00F, 0x4000⟩,
    ⟨"RDCJ.F", 0xF00F, 0x5000⟩,
    ⟨"AVGCJ.C", 0xF0FF, 0x6000⟩,
    ⟨"AVGCJ.F", 0xF0FF, 0x7000⟩ ]

/-- The word matches the row (R71). -/
def OpcodeRow.covers (r : OpcodeRow) (w : Word) : Bool := (w &&& r.mask) == r.value

/-- The row of a command in the opcode map (R72). -/
def Instr.row (i : Instr) : OpcodeRow :=
  match i with
  | .sweep _ => ⟨"SWEEP", 0xFFFE, 0x1000⟩
  | .rdtcC _ _ => ⟨"RDTC.C", 0xF00F, 0x2000⟩
  | .rdtcF _ _ => ⟨"RDTC.F", 0xF00F, 0x3000⟩
  | .rdcjC _ _ => ⟨"RDCJ.C", 0xF00F, 0x4000⟩
  | .rdcjF _ _ => ⟨"RDCJ.F", 0xF00F, 0x5000⟩
  | .avgcjC _ => ⟨"AVGCJ.C", 0xF0FF, 0x6000⟩
  | .avgcjF _ => ⟨"AVGCJ.F", 0xF0FF, 0x7000⟩

/-- The word `{op, hub, ch, rsv = 0, ow}` of R70. -/
def packWord (op hub ch : Nat) (ow : Bool) : Word :=
  BitVec.ofNat 4 op ++ BitVec.ofNat 4 hub ++ BitVec.ofNat 4 ch ++ 0#3 ++ BitVec.ofBool ow

/-- The word of a command (R72; the fields it does not use are zero, R71). -/
def encode (i : Instr) : Word :=
  match i with
  | .sweep ow => packWord 1 0 0 ow
  | .rdtcC hub ch => packWord 2 hub ch false
  | .rdtcF hub ch => packWord 3 hub ch false
  | .rdcjC hub ch => packWord 4 hub ch false
  | .rdcjF hub ch => packWord 5 hub ch false
  | .avgcjC hub => packWord 6 hub 0 false
  | .avgcjF hub => packWord 7 hub 0 false

/-- The command word whose table bits are `w`: every bit at and above `nbits` is zero. -/
def tableWord (nbits w : Nat) : Word := BitVec.ofNat 16 (w % 2 ^ nbits)

/-- The command the decoder reads from a word numbered as spec/opcode_table.json numbers its bits. -/
def decodeTableWord (nbits w : Nat) : Option Instr :=
  match decode (tableWord nbits w) with
  | .ok i => some i
  | .reject _ => none

end Sys2Proof
end

