-- ==== Sys2Proof/Machine/Params.lean ====
section
/-! DEFINITION. What follows from the configuration record: derived parameters, legality, sentinels
(spec/00_scope.md R5, spec/10_state.md R24, R29, R30; spec/41_bus_capture.md R121). -/

namespace Sys2Proof

/-- `N_LINES`: data input lines sampled in lock-step (R5). -/
def Config.nLines (c : Config) : Nat :=
  match c.topology with
  | .addressMultiplexed => c.hubCount
  | .chipSelectPerChannel => 16

/-- `N_HUBS`: first index range of the Reading Store (R5). -/
def Config.nHubs (c : Config) : Nat :=
  match c.topology with
  | .addressMultiplexed => c.hubCount
  | .chipSelectPerChannel => 1

/-- `N_CH`: second index range of the Reading Store (R5). -/
def Config.nCh (c : Config) : Nat :=
  match c.topology with
  | .addressMultiplexed => c.addressCount
  | .chipSelectPerChannel => 16

/-- Captures in one sweep: one per address, or one (R116, R117). -/
def Config.captures (c : Config) : Nat :=
  match c.topology with
  | .addressMultiplexed => c.addressCount
  | .chipSelectPerChannel => 1

/-- Ticks of one sweep, the tick of acceptance and the FINISH tick counted (R121). -/
def Config.sweepTicks (c : Config) : Nat := 130 * c.captures + 2

/-- The five sentinels (R29), in the order of R5. -/
def Config.sentinels (c : Config) : List Reading :=
  [c.faultOpen, c.faultShortToGround, c.faultShortToSupply, c.uninitialized, c.junctionOutOfRange]

/-- The smaller of two Readings. -/
def lesserReading (a b : Reading) : Reading := if a ≤ b then a else b

/-- `SENTINEL_MIN`: the least of the five sentinels (R5). -/
def Config.sentinelMin (c : Config) : Reading :=
  lesserReading c.faultOpen (lesserReading c.faultShortToGround
    (lesserReading c.faultShortToSupply (lesserReading c.uninitialized c.junctionOutOfRange)))

/-- `is_sentinel(r)` is `r >= SENTINEL_MIN` (R30). -/
def Config.isSentinel (c : Config) (r : Reading) : Bool := decide (c.sentinelMin ≤ r)

/-- 2047.75, the largest value a decoder can return (R29, R95), written as the fraction 8191/4. -/
def maxDecodable : Reading := ⟨8191, 4, by decide, by decide⟩

/-- The number of a Reading among those `READING_FMT` must represent exactly (R78): the multiples of 1/16 from -2048 to
2047.75 count up from 0, the five sentinels follow. None: a value the format need not represent. -/
def Config.exactIndex (c : Config) (r : Reading) : Option Nat :=
  if (16 * r).den = 1 ∧ -2048 ≤ r ∧ r ≤ maxDecodable then some ((16 * r).num + 32768).toNat
  else (c.sentinels.findIdx? fun x => decide (x = r)).map (65533 + ·)

/-- `READING_FMT` (R5, R78): the code, as a number, by which a Reading leaves the block. What it must represent exactly has
a code of its own; everything else about it is free (log 7). -/
def Config.readingFmt (c : Config) (r : Reading) : Nat :=
  match c.exactIndex r with
  | some k => Config.freeReadingCode c k
  | none => Config.freeInexactCode c r

/-- `HUB_COUNT` and `ADDRESS_COUNT` in range, where the topology reads them (R5, D6). -/
def Config.legalCounts (c : Config) : Bool :=
  match c.topology with
  | .addressMultiplexed =>
    decide (1 ≤ c.hubCount) && decide (c.hubCount ≤ 10) &&
      decide (1 ≤ c.addressCount) && decide (c.addressCount ≤ 16)
  | .chipSelectPerChannel => true

/-- The sentinels are pairwise distinct and each exceeds 2047.75 (R5, R29). -/
def Config.legalSentinels (c : Config) : Bool :=
  decide c.sentinels.Nodup && c.sentinels.all fun r => decide (maxDecodable < r)

/-- `T_TICK >= 100 ns` (R195). -/
def Config.legalTick (c : Config) : Bool := decide (100 ≤ c.tTickNs)

/-- The configuration is an instance of the hardware (R5, R24; U11, U15). -/
def Config.legal (c : Config) : Bool := c.legalCounts && c.legalSentinels && c.legalTick

/-- The store addresses `(h, c)` of the instance (R50). -/
def Config.entries (c : Config) : List (Nat × Nat) :=
  (List.range c.nHubs).flatMap fun h => (List.range c.nCh).map fun ch => (h, ch)

/-- Which capture of a sweep fills entry `(h, c)` (R56): that at address `c`, or the only one. -/
def Config.captureOf (cfg : Config) (c : Nat) : Nat :=
  match cfg.topology with
  | .addressMultiplexed => c
  | .chipSelectPerChannel => 0

/-- Which data line entry `(h, c)` takes its frames from (R56): line `h`, or line `c`. -/
def Config.lineOf (cfg : Config) (h c : Nat) : Nat :=
  match cfg.topology with
  | .addressMultiplexed => h
  | .chipSelectPerChannel => c

end Sys2Proof
end

