-- ==== Sys2Proof/Machine/State.lean ====
section
/-! DEFINITION. The machine's state as plain data, its stop reasons, and the state after reset (spec/10_state.md R20
to R35, spec/70_reset_and_hazards.md R190). -/

namespace Sys2Proof.Machine

/-- The hardware raises no exception and has no abort path (R170): there is no fault, and no step raises one. -/
inductive Fault
deriving DecidableEq, Repr

/-- Why a step gives no next state. -/
inductive Refusal where
  /-- Raised by an arm of `exec` whose instruction has no meaning yet; no arm does. Safe. -/
  | notModelled (mnemonic : String)
  /-- Raised by `step` (and `tick`) where `cfg` is outside the ranges of R5: "not an instance of this hardware, and a
  model refuses to build one" (R24). Safe: no claim about such an instance can be proved from a run. -/
  | illegalInstance
deriving DecidableEq, Repr

/-- The step of the sequencer (R20, R22). -/
inductive Phase where
  | idle | setup | rise | sample | low2 | low3 | commit | finish
deriving DecidableEq, Repr

/-- The response type of R78: "`Count(n : 0..160) | Reading(r : rational) | Refused`". -/
inductive Response where
  | count (n : Nat)
  | reading (r : Reading)
  | refused
deriving DecidableEq, Repr

/-- An event of the pin history (R13): a drive that changes a pin, or a sample instant. -/
inductive PinEvent where
  | sck (level : Bool)
  | address (value : BitVec 4)
  | csN (level : Bool)
  | sampled
deriving DecidableEq, Repr

/-- What the host does on the block's inputs (R35), one entry per tick but for `hold`. -/
inductive HostTurn where
  /-- one tick with `rst = 0`, `cmd_valid = 0` -/
  | quiet
  /-- one tick with `cmd_valid = 1`; the word is withdrawn after it, accepted or not (R197) -/
  | present (w : Word)
  /-- `cmd_valid = 1` with this word until the tick that accepts it (R197) -/
  | hold (w : Word)
  /-- one tick with `rst = 1`, whatever is on the command port (R190) -/
  | reset (cmd : Option Word)
deriving DecidableEq, Repr

/-- One half of the Reading Store: pairs (16 * h + c, Reading), addresses strictly rising, no Reading equal to
`UNINITIALIZED`, which is what an unlisted address reads as (R31, R34). -/
abbrev Memory := List (Nat × Reading)

/-- The state of the block (R20) and, after the comment lines below, what the model adds: the configuration, the
outside world's coming inputs, and the observation of R13. -/
structure State where
  /-- `SHIFT[l]`, line 0 first, `N_LINES` of them (R21) -/
  shift : List Frame
  /-- `PHASE` (R22) -/
  phase : Phase
  /-- `ACNT` (R22) -/
  acnt : BitVec 4
  /-- `BCNT` (R22) -/
  bcnt : BitVec 6
  /-- `OW` (R26) -/
  ow : Bool
  /-- `VALID_COUNT` (R25) -/
  validCount : BitVec 8
  /-- output pin `SCK` (R27) -/
  sck : Bool
  /-- output pins `A[3:0]` (R27) -/
  a : BitVec 4
  /-- output pin `CS_N` (R27) -/
  csN : Bool
  /-- `TC[h][c]` (R31) -/
  tc : Memory
  /-- `CJ[h][c]` (R31) -/
  cj : Memory
  -- not the spec's state: the instance's constants (R5, R24)
  /-- the configuration record; no step writes it (log 1) -/
  cfg : Config
  -- not the spec's state: ports and observation (R13, R35)
  /-- the response port in the tick just done; none when `resp_valid = 0` (R35) -/
  resp : Option Response
  /-- the sequence of responses, oldest first (R13 (a)) -/
  responses : List Response
  /-- the pin history, oldest first (R13 (b)) -/
  pinHistory : List PinEvent
  -- not the spec's state: the outside world (R10, R12)
  /-- the host's coming turns; after the last one the host is quiet (log 2) -/
  host : List HostTurn
  /-- the levels of the data lines at the coming sample instants; after the last one, free values (log 3) -/
  lines : List LineLevels
  /-- sample instants so far: the index of the next free sample (log 3) -/
  sampleNo : Nat
  /-- ticks so far (log 6) -/
  tickNo : Nat
deriving DecidableEq, Repr

/-- The state of an instance right after reset (R34, R190): every piece of R20's state at its reset value, a silent host,
no scripted line levels, nothing observed yet. -/
def State.resetOf (c : Config) : State where
  shift := List.replicate c.nLines 0#32
  phase := .idle
  acnt := 0#4
  bcnt := 0#6
  ow := false
  validCount := 0#8
  sck := false
  a := 0#4
  csN := true
  tc := []
  cj := []
  cfg := c
  resp := none
  responses := []
  pinHistory := []
  host := []
  lines := []
  sampleNo := 0
  tickNo := 0

/-- The instance of `State.reset` (DESIGN CHOICE, log 1): the largest multiplexed bus, the spec's default sentinels (D2),
`T_TICK` at its minimum, `UNTYPED_FAULT` free. -/
def fullMultiplexed : Config where
  topology := .addressMultiplexed
  hubCount := 10
  addressCount := 16
  faultOpen := 10000
  faultShortToGround := 10001
  faultShortToSupply := 10002
  uninitialized := 10003
  junctionOutOfRange := 10004
  untypedFault := Config.freeUntypedFault
  tTickNs := 100

/-- The machine right after reset (R34). -/
def State.reset : State := State.resetOf fullMultiplexed

end Sys2Proof.Machine
end

