-- ==== Sys2Proof/Machine/Ops.lean ====
section
/-! DEFINITION. The named operations over the store, the shift registers, the pins, the ports, and reset: the only
places that read or write them. The hardware has no exception to take and none to return from (spec/60_exceptions.md
R170, R177, R178); what stands in an exception's place is reset (spec/70_reset_and_hazards.md R190 to R192). -/

namespace Sys2Proof.Machine

/-! ### The Reading Store's memory (R31, R50) -/

/-- What address `k` of a half holds; an unlisted address reads as `dflt` (`UNINITIALIZED`). -/
def Memory.read (dflt : Reading) : Memory → Nat → Reading
  | [], _ => dflt
  | (a, r) :: m, k => if a = k then r else Memory.read dflt m k

/-- List address `k` with Reading `r`, keeping the addresses rising. -/
def Memory.insert (k : Nat) (r : Reading) : Memory → Memory
  | [] => [(k, r)]
  | (a, x) :: m =>
    if k < a then (k, r) :: (a, x) :: m
    else if k = a then (k, r) :: m
    else (a, x) :: Memory.insert k r m

/-- Unlist address `k`. -/
def Memory.erase (k : Nat) : Memory → Memory
  | [] => []
  | (a, x) :: m => if k = a then m else (a, x) :: Memory.erase k m

/-- Write Reading `r` at address `k`; writing what an unlisted address reads as unlists it. -/
def Memory.write (dflt : Reading) (m : Memory) (k : Nat) (r : Reading) : Memory :=
  if r = dflt then Memory.erase k m else Memory.insert k r m

/-- The canonical form: addresses strictly rising, nothing listed that an unlisted address reads as. -/
abbrev Memory.wf (dflt : Reading) (m : Memory) : Prop :=
  (m.map Prod.fst).Pairwise (· < ·) ∧ ∀ e ∈ m, e.2 ≠ dflt

/-- Every listed address is a store address `(h, c)` of the instance (R50). -/
abbrev Memory.inRange (c : Config) (m : Memory) : Prop :=
  ∀ e ∈ m, e.1 / 16 < c.nHubs ∧ e.1 % 16 < c.nCh

/-- The address of entry `(h, c)`; a channel index is below 16 (R5). -/
def entryAddr (h c : Nat) : Nat := 16 * h + c

/-- `TC[h][c]` (R9). -/
def State.readTc (s : State) (h c : Nat) : Reading := s.tc.read s.cfg.uninitialized (entryAddr h c)

/-- `CJ[h][c]` (R9). -/
def State.readCj (s : State) (h c : Nat) : Reading := s.cj.read s.cfg.uninitialized (entryAddr h c)

/-- `TC[h][c] <- r` (R9). -/
def State.writeTc (s : State) (h c : Nat) (r : Reading) : State :=
  { s with tc := s.tc.write s.cfg.uninitialized (entryAddr h c) r }

/-- `CJ[h][c] <- r` (R9). -/
def State.writeCj (s : State) (h c : Nat) (r : Reading) : State :=
  { s with cj := s.cj.write s.cfg.uninitialized (entryAddr h c) r }

/-! ### Shift registers and data lines (R21, R28) -/

/-- `SHIFT[l]` (R9); a line the instance does not have reads 0. -/
def State.lane (s : State) (l : Nat) : Frame := s.shift.getD l 0#32

/-- `{v[30:0], b}` (R21). -/
def shiftIn (v : Frame) (b : Bool) : Frame := v.extractLsb' 0 31 ++ BitVec.ofBool b

/-- Shift every lane, lane `l` taking its own line's bit (R21, R112). -/
def shiftLanes (d : LineLevels) : Nat → List Frame → List Frame
  | _, [] => []
  | l, v :: vs => shiftIn v (d.getLsbD l) :: shiftLanes d (l + 1) vs

/-- The levels of the lines at the `k`-th coming sample instant, 0 the next one: scripted, then free (R12). -/
def State.comingSample (s : State) (k : Nat) : LineLevels :=
  match s.lines[k]? with
  | some d => d
  | none => Config.freeSample (s.sampleNo + k)

/-- Sample every line at one instant into its shift register (R111, R112): an event of the pin history (R13). -/
def State.takeSample (s : State) : State :=
  { s with
    shift := shiftLanes (s.comingSample 0) 0 s.shift
    lines := s.lines.tail
    sampleNo := s.sampleNo + 1
    pinHistory := s.pinHistory ++ [.sampled] }

/-! ### Output pins (R27): a drive that changes nothing is no event (R110, R114) -/

/-- `SCK <- b` -/
def State.driveSck (b : Bool) (s : State) : State :=
  { s with sck := b, pinHistory := s.pinHistory ++ (if s.sck = b then [] else [.sck b]) }

/-- `A <- v`, all four lines in one tick (R57, R110) -/
def State.driveA (v : BitVec 4) (s : State) : State :=
  { s with a := v, pinHistory := s.pinHistory ++ (if s.a = v then [] else [.address v]) }

/-- `CS_N <- b` -/
def State.driveCsN (b : Bool) (s : State) : State :=
  { s with csN := b, pinHistory := s.pinHistory ++ (if s.csN = b then [] else [.csN b]) }

/-! ### Ports (R35, R78) -/

/-- `respond(kind, v)`: the response port holds it for this tick, and it joins the sequence of R13 (a). -/
def State.respond (r : Response) (s : State) : State :=
  { s with resp := some r, responses := s.responses ++ [r] }

/-- The host's turn in the coming tick; a script run out is a quiet host. -/
def State.turn (s : State) : HostTurn := s.host.headD .quiet

/-- `rst = 1` in this turn. -/
def HostTurn.asserts (t : HostTurn) : Bool :=
  match t with
  | .reset _ => true
  | .quiet => false
  | .present _ => false
  | .hold _ => false

/-- The word on the command port in this turn; none when `cmd_valid = 0`. -/
def HostTurn.command (t : HostTurn) : Option Word :=
  match t with
  | .quiet => none
  | .present w => some w
  | .hold w => some w
  | .reset cmd => cmd

/-- The turns left after a tick that accepts no command because the block is busy: a held word stays (R197). -/
def busyTurns : List HostTurn → List HostTurn
  | [] => []
  | .hold w :: ts => .hold w :: ts
  | _ :: ts => ts

/-- Begin a tick of an idle block, or a reset tick: the host's turn is used up, no response is given yet (R35). -/
def State.beginTick (s : State) : State :=
  { s with host := s.host.tail, resp := none, tickNo := s.tickNo + 1 }

/-- Begin a tick of a busy block: no command is accepted (R23, R197), no response is given yet. -/
def State.beginBusyTick (s : State) : State :=
  { s with host := busyTurns s.host, resp := none, tickNo := s.tickNo + 1 }

/-! ### Reset (R190 to R192) -/

/-- A tick with `rst = 1`: every piece of the block's state takes its reset value, no command is accepted, no response
is given; the pins go to their reset values at this edge (R191). What is outside the block goes on. -/
def resetTick (s : State) : State :=
  let d := ((s.beginTick.driveSck false).driveA 0#4).driveCsN true
  { State.resetOf s.cfg with
    responses := d.responses
    pinHistory := d.pinHistory
    host := d.host
    lines := d.lines
    sampleNo := d.sampleNo
    tickNo := d.tickNo }

end Sys2Proof.Machine
end

