-- ==== Sys2Proof/Machine/Operands.lean ====
section
/-! DEFINITION. The operand forms of the commands: hub and channel indices and their range checks
(spec/20_memory.md R51, spec/30_encoding.md R73, R74). There is no other operand form: no immediate, no addressing
mode (R73). -/

namespace Sys2Proof.Machine

/-- `h < N_HUBS` (R74 (d)). -/
def State.hasHub (s : State) (hub : Nat) : Bool := decide (hub < s.cfg.nHubs)

/-- `h < N_HUBS` and `c < N_CH` (R74 (d), (e)). -/
def State.hasEntry (s : State) (hub ch : Nat) : Bool := s.hasHub hub && decide (ch < s.cfg.nCh)

/-- Refuse an accepted word: no state changes, the answer is `resp_ok = 0` in the same tick (R74). -/
def State.refuse (s : State) : State := s.respond .refused

/-- A read command that names an entry: refused if the instance lacks it, else answered with a Reading (R51, R74). -/
def answerEntry (hub ch : Nat) (r : Reading) (s : State) : State :=
  if s.hasEntry hub ch then s.respond (.reading r) else s.refuse

/-- A read command that names a hub (R51, R74). -/
def answerHub (hub : Nat) (r : Reading) (s : State) : State :=
  if s.hasHub hub then s.respond (.reading r) else s.refuse

end Sys2Proof.Machine
end

