-- ==== Sys2Proof/Machine/Flags.lean ====
section
/-! DEFINITION. The block has no condition codes (spec/10_state.md R23). Its one derived status bit, and the signals of
the host side that are functions of the state (R35, R78). -/

namespace Sys2Proof.Machine

/-- `BUSY = (PHASE != IDLE)` (R23). -/
def State.busy (s : State) : Bool := decide (s.phase ≠ .idle)

/-- `cmd_ready = not BUSY` (R35). -/
def State.cmdReady (s : State) : Bool := !s.busy

/-- `resp_valid`: a response is given in the tick just done (R35). -/
def State.respValid (s : State) : Bool := s.resp.isSome

/-- `resp_ok` (R78); any value when not valid (U13). -/
def State.respOk (s : State) : Bool :=
  match s.resp with
  | some (.count _) => true
  | some (.reading _) => true
  | some .refused => false
  | none => Config.freeRespOk s.tickNo

/-- `resp_kind` is `COUNT` (else it is `READING`) (R78); unspecified for a refused word and when not valid (R74, U13). -/
def State.respKindIsCount (s : State) : Bool :=
  match s.resp with
  | some (.count _) => true
  | some (.reading _) => false
  | some .refused => Config.freeRespKindIsCount s.tickNo
  | none => Config.freeRespKindIsCount s.tickNo

/-- `resp_value`: the count, or the Reading in `READING_FMT` (R78); unspecified for a refused word and when not valid. -/
def State.respValue (s : State) : Nat :=
  match s.resp with
  | some (.count n) => n
  | some (.reading r) => s.cfg.readingFmt r
  | some .refused => Config.freeRespValue s.tickNo
  | none => Config.freeRespValue s.tickNo

end Sys2Proof.Machine
end

