-- ==== Sys2Proof/Machine/FrameDecoder.lean ====
section
/-! DEFINITION. The Frame Decoder: DECODE_TC and DECODE_CJ, pure functions of a frame and the instance's parameters
(spec/40_frame_decoder.md R90 to R101). -/

namespace Sys2Proof.Machine

/-- The Reading of a frame whose fault flag is set: open, then ground, then supply, then `UNTYPED_FAULT` (R91, R92). -/
def faultReading (c : Config) (f : Frame) : Reading :=
  if f.getLsbD 0 then c.faultOpen
  else if f.getLsbD 1 then c.faultShortToGround
  else if f.getLsbD 2 then c.faultShortToSupply
  else c.untypedFault

/-- The signed code of the thermocouple field, by the source's procedure: shift right by 18; if bit 13 is set, invert,
mask to 13 bits, add 1, negate (R90, R93). -/
def tcCode (f : Frame) : Int :=
  let v : Frame := f >>> 18
  if v.getLsbD 13 then -(((~~~v &&& 0x1FFF#32).toNat : Int) + 1) else ((v &&& 0x1FFF#32).toNat : Int)

/-- `DECODE_TC(frame)` (R90). -/
def decodeTc (c : Config) (f : Frame) : Reading :=
  if f.getLsbD 16 then faultReading c f else (tcCode f : Reading) / 4

/-- The signed code of the junction field: shift right by 4, isolate 12 bits; if bit 11 is set, invert, mask to
11 bits, add 1, negate (R96, R97). -/
def cjCode (f : Frame) : Int :=
  let w : Frame := (f >>> 4) &&& 0xFFF#32
  if w.getLsbD 11 then -(((~~~w &&& 0x7FF#32).toNat : Int) + 1) else ((w &&& 0x7FF#32).toNat : Int)

/-- `DECODE_CJ(frame)` (R96): never a sentinel, whatever bit 16 holds (R100). -/
def decodeCj (f : Frame) : Reading := (cjCode f : Reading) / 16

end Sys2Proof.Machine
end

