-- ==== Sys2Proof/Machine/ReadingStore.lean ====
section
/-! DEFINITION. The Reading Store: UPDATE, the Fahrenheit conversion, and the four read commands
(spec/42_reading_store.md R140 to R152). -/

namespace Sys2Proof.Machine

/-- The three conditions, joined by OR, that let the thermocouple half be replaced (R140, R142, R175); `old` is the
stored Reading before the UPDATE. -/
def replacesTc (c : Config) (overwrite : Bool) (old new : Reading) : Bool :=
  overwrite || !c.isSentinel new || decide (old = c.uninitialized)

/-- `UPDATE(h, c, tc, cj, overwrite)` (R140): the junction half always, the thermocouple half by the policy. -/
def update (h ch : Nat) (tc cj : Reading) (overwrite : Bool) (s : State) : State :=
  let t := s.writeCj h ch cj
  if replacesTc s.cfg overwrite (s.readTc h ch) tc then t.writeTc h ch tc else t

/-- `F(r) = r * 9/5 + 32`, exact, for sentinels too (R148, R149). -/
def fahrenheit (r : Reading) : Reading := r * 9 / 5 + 32

/-- `RDTC.C hub, ch` (R144). -/
def execRdtcC (hub ch : Nat) (s : State) : Host.Outcome State Fault Refusal :=
  .next (answerEntry hub ch (s.readTc hub ch) s)

/-- `RDTC.F hub, ch` (R145). -/
def execRdtcF (hub ch : Nat) (s : State) : Host.Outcome State Fault Refusal :=
  .next (answerEntry hub ch (fahrenheit (s.readTc hub ch)) s)

/-- `RDCJ.C hub, ch` (R146): no range test. -/
def execRdcjC (hub ch : Nat) (s : State) : Host.Outcome State Fault Refusal :=
  .next (answerEntry hub ch (s.readCj hub ch) s)

/-- `RDCJ.F hub, ch` (R147). -/
def execRdcjF (hub ch : Nat) (s : State) : Host.Outcome State Fault Refusal :=
  .next (answerEntry hub ch (fahrenheit (s.readCj hub ch)) s)

end Sys2Proof.Machine
end

