-- ==== Sys2Proof/Machine/Aggregator.lean ====
section
/-! DEFINITION. The Aggregator: AVGCJ.C and AVGCJ.F (spec/43_aggregator.md R160 to R167). -/

namespace Sys2Proof.Machine

/-- A junction Reading outside the plausible range [-10, 100] (R161). -/
def implausible (r : Reading) : Bool := decide (r < -10) || decide (100 < r)

/-- The junction Readings of a hub, channel 0 first (R160, R165). -/
def State.hubJunctions (s : State) (hub : Nat) : List Reading :=
  (List.range s.cfg.nCh).map fun ch => s.readCj hub ch

/-- What `AVGCJ.C` answers for a hub: the rejection outranks the exact mean over the `N_CH` channels
(R160, R162, R176). -/
def State.averageCj (s : State) (hub : Nat) : Reading :=
  if (s.hubJunctions hub).any implausible then s.cfg.junctionOutOfRange
  else (s.hubJunctions hub).sum / (s.cfg.nCh : Reading)

/-- `AVGCJ.C hub` (R160). -/
def execAvgcjC (hub : Nat) (s : State) : Host.Outcome State Fault Refusal :=
  .next (answerHub hub (s.averageCj hub) s)

/-- `AVGCJ.F hub` (R163): the conversion is applied to the result, the sentinel too. -/
def execAvgcjF (hub : Nat) (s : State) : Host.Outcome State Fault Refusal :=
  .next (answerHub hub (fahrenheit (s.averageCj hub)) s)

end Sys2Proof.Machine
end

