-- ==== Sys2Proof/Machine/BusCapture.lean ====
section
/-! DEFINITION. The Bus Capture Protocol: ADDR_DRIVE, CAPTURE32, the sequencer tick by tick, and SWEEP
(spec/41_bus_capture.md R110 to R125). The meaning of SWEEP runs the sequencer of R119 from the tick of acceptance to
the FINISH tick, or to a reset (R192); `sweepOp` is the pseudocode of R116 and R117. -/

namespace Sys2Proof.Machine

/-! ### Shared by the two levels -/

/-- `ADDR_DRIVE(a)` (R110): bit `i` of the address on `A[i]` (R57). -/
def addrDrive (a : BitVec 4) (s : State) : State := s.driveA a

/-- The store address of what line `l` delivered in the capture at address `a` (R56): `(l, a)` or `(0, l)`. -/
def entryOfLine (c : Config) (a l : Nat) : Nat × Nat :=
  match c.topology with
  | .addressMultiplexed => (l, a)
  | .chipSelectPerChannel => (0, l)

/-- Decode and UPDATE for line `l` of the capture at address `a` (R116, R117, R119). -/
def updateLine (a : Nat) (overwrite : Bool) (s : State) (l : Nat) : State :=
  let e := entryOfLine s.cfg a l
  update e.1 e.2 (decodeTc s.cfg (s.lane l)) (decodeCj (s.lane l)) overwrite s

/-- The UPDATEs of one capture, one per line (R54, R116, R117). -/
def updateLines (a : Nat) (overwrite : Bool) (s : State) : State :=
  (List.range s.cfg.nLines).foldl (updateLine a overwrite) s

/-- The number of entries whose stored thermocouple Reading is no sentinel (R25, R118). -/
def State.countValid (s : State) : Nat :=
  s.cfg.entries.countP fun e => !s.cfg.isSentinel (s.readTc e.1 e.2)

/-- The end of a sweep: the count goes to `VALID_COUNT` and to the response, the counters return to 0 (R119 FINISH). -/
def finishSweep (s : State) : State :=
  let v := BitVec.ofNat 8 s.countValid
  ({ s with validCount := v, acnt := 0#4, bcnt := 0#6, phase := .idle }).respond (.count v.toNat)

/-! ### The sequencer, one definition per row group of R119 -/

/-- `IDLE`, `SWEEP` accepted. -/
def acceptSweep (ow : Bool) (s : State) : State :=
  { s with ow := ow, acnt := 0#4, bcnt := 0#6, phase := .setup }

/-- `SETUP`: the address, or the chip-select. -/
def seqSetup (s : State) : State :=
  match s.cfg.topology with
  | .addressMultiplexed => { addrDrive s.acnt s with bcnt := 0#6, phase := .rise }
  | .chipSelectPerChannel => { s.driveCsN false with bcnt := 0#6, phase := .rise }

/-- `RISE`. -/
def seqRise (s : State) : State := { s.driveSck true with phase := .sample }

/-- `SAMPLE`: the lines are registered, then the clock falls at the same edge (R113). -/
def seqSample (s : State) : State :=
  { s.takeSample.driveSck false with bcnt := s.bcnt + 1#6, phase := .low2 }

/-- `LOW2`: a redundant drive. -/
def seqLow2 (s : State) : State := { s.driveSck false with phase := .low3 }

/-- `LOW3`: a redundant drive; the capture is done after 32 bit cycles. -/
def seqLow3 (s : State) : State :=
  { s.driveSck false with phase := if s.bcnt.toNat < 32 then .rise else .commit }

/-- `COMMIT`: the UPDATEs of the capture, then the next address or the end. The comparison is on integers. -/
def seqCommit (s : State) : State :=
  match s.cfg.topology with
  | .addressMultiplexed =>
    let t := updateLines s.acnt.toNat s.ow s
    if s.acnt.toNat + 1 < s.cfg.addressCount then { t with acnt := s.acnt + 1#4, phase := .setup }
    else { t with phase := .finish }
  | .chipSelectPerChannel => { updateLines 0 s.ow (s.driveCsN true) with phase := .finish }

/-- One tick of a running sweep (R119); an idle block does nothing. -/
def seqTick (s : State) : State :=
  match s.phase with
  | .idle => s
  | .setup => seqSetup s
  | .rise => seqRise s
  | .sample => seqSample s
  | .low2 => seqLow2 s
  | .low3 => seqLow3 s
  | .commit => seqCommit s
  | .finish => finishSweep s

/-- One clock edge of a busy block: reset wins, and no command is accepted (R23, R190, R192). -/
def busyTick (s : State) : State :=
  if s.turn.asserts then resetTick s else seqTick s.beginBusyTick

/-- At most `n` clock edges, until the block is idle. -/
def runBusy : Nat → State → State
  | 0, s => s
  | n + 1, s => if s.busy then runBusy n (busyTick s) else s

/-- `SWEEP ow` (R116, R117, R119): acceptance, then every tick to the response, or to a reset that stops the sweep. -/
def execSweep (ow : Bool) (s : State) : Host.Outcome State Fault Refusal :=
  .next (runBusy (s.cfg.sweepTicks - 1) (acceptSweep ow s))

/-! ### The operation level (R111, R116, R117) -/

/-- One bit cycle: raise the clock, sample every line, lower the clock (R111). -/
def bitCycle (s : State) : State := ((s.driveSck true).takeSample).driveSck false

/-- `n` bit cycles. -/
def bitCycles : Nat → State → State
  | 0, s => s
  | n + 1, s => bitCycles n (bitCycle s)

/-- `CAPTURE32()`: exactly 32 bit cycles (R111). -/
def capture32 (s : State) : State := bitCycles 32 s

/-- One address of a multiplexed sweep: drive, capture, decode and UPDATE (R116). -/
def sweepAddress (overwrite : Bool) (s : State) (a : Nat) : State :=
  updateLines a overwrite (capture32 (addrDrive (BitVec.ofNat 4 a) s))

/-- `SWEEP` as one atomic step, the pseudocode of R116 and R117. -/
def sweepOp (overwrite : Bool) (s : State) : State :=
  let t := { s with ow := overwrite }
  match s.cfg.topology with
  | .addressMultiplexed =>
    finishSweep ((List.range s.cfg.addressCount).foldl (sweepAddress overwrite) t)
  | .chipSelectPerChannel =>
    finishSweep (updateLines 0 overwrite ((capture32 (t.driveCsN false)).driveCsN true))

/-- The frame line `l` delivers in the capture that comes after `n` whole captures, 0 the next one: 32 samples, the first in
bit 31 (R12, R52). -/
def State.captureFrame (s : State) (n l : Nat) : Frame :=
  (List.range 32).foldl (fun f k => shiftIn f ((s.comingSample (32 * n + k)).getLsbD l)) 0#32

/-- The turns left after `n` ticks of a busy block. -/
def busyTurnsAfter : Nat → List HostTurn → List HostTurn
  | 0, ts => ts
  | n + 1, ts => busyTurnsAfter n (busyTurns ts)

/-- No turn of the next `n` ticks of a busy block asserts `rst`. -/
def noResetWithin : Nat → List HostTurn → Bool
  | 0, _ => true
  | n + 1, ts => !(ts.headD .quiet).asserts && noResetWithin n (busyTurns ts)

end Sys2Proof.Machine
end

