-- ==== Sys2Proof/Machine/Dispatch.lean ====
section
/-! DEFINITION. Which meaning each command has: one arm per constructor of Instr (spec/opcode_table.json). -/

namespace Sys2Proof.Machine

def exec (i : Instr) (s : State) : Host.Outcome State Fault Refusal :=
  match i with
  | .sweep ow => Sys2Proof.Machine.execSweep ow s
  | .rdtcC hub ch => Sys2Proof.Machine.execRdtcC hub ch s
  | .rdtcF hub ch => Sys2Proof.Machine.execRdtcF hub ch s
  | .rdcjC hub ch => Sys2Proof.Machine.execRdcjC hub ch s
  | .rdcjF hub ch => Sys2Proof.Machine.execRdcjF hub ch s
  | .avgcjC hub => Sys2Proof.Machine.execAvgcjC hub s
  | .avgcjF hub => Sys2Proof.Machine.execAvgcjF hub s

end Sys2Proof.Machine
end

