-- ==== Sys2Proof/Machine/Edge.lean ====
section
/-! DEFINITION. One clock edge of the block (spec/41_bus_capture.md R119, spec/70_reset_and_hazards.md R190), for a given
way of running an accepted command: whole (`step`, the operation level of R11) or its first tick only (`tick`, the tick
level). -/

namespace Sys2Proof.Machine

/-- An idle block with `rst = 0` looks at its command port: nothing there, a refused word, or a command (R74, R119). -/
def acceptCommand (run : Instr → State → Host.Outcome State Fault Refusal) (s : State) :
    Host.Outcome State Fault Refusal :=
  match s.turn.command with
  | none => .next s.beginTick
  | some w =>
    match decode w with
    | .ok i => run i s.beginTick
    | .reject _ => .next s.beginTick.refuse

/-- One clock edge: an instance outside R5 is refused (R24), reset wins (R192), a busy block takes its next sequencer
step (R23), an idle one may accept a command. -/
def edge (run : Instr → State → Host.Outcome State Fault Refusal) (s : State) :
    Host.Outcome State Fault Refusal :=
  if s.cfg.legal then
    if s.turn.asserts then .next (resetTick s)
    else if s.busy then .next (busyTick s)
    else acceptCommand run s
  else .refused .illegalInstance

/-- What the tick that accepts a command does (R119): a SWEEP begins, every other command is done in that tick. -/
def firstTick (i : Instr) (s : State) : Host.Outcome State Fault Refusal :=
  match i with
  | .sweep ow => .next (acceptSweep ow s)
  | .rdtcC hub ch => exec (.rdtcC hub ch) s
  | .rdtcF hub ch => exec (.rdtcF hub ch) s
  | .rdcjC hub ch => exec (.rdcjC hub ch) s
  | .rdcjF hub ch => exec (.rdcjF hub ch) s
  | .avgcjC hub => exec (.avgcjC hub) s
  | .avgcjF hub => exec (.avgcjF hub) s

/-- The block at tick level: one rising edge of `clk`, the whole table of R119 with reset. -/
def tick (s : State) : Host.Outcome State Fault Refusal := edge firstTick s

/-- `n` rising edges of `clk`. -/
def ticks : Nat → State → Host.Outcome State Fault Refusal
  | 0, s => .next s
  | n + 1, s =>
    match tick s with
    | .next t => ticks n t
    | .fault r => .fault r
    | .refused r => .refused r

end Sys2Proof.Machine
end

