-- ==== Sys2Proof/Machine/Step.lean ====
section
/-! DEFINITION. The step of the machine: one clock edge of an idle block, or one whole accepted command (spec/00_scope.md
R11); and how a command word is placed where the step fetches it. -/

namespace Sys2Proof.Machine

/-- One step. -/
def step (s : State) : Host.Outcome State Fault Refusal := edge exec s

/-- `s` with that word on the command port in the coming tick, the block ready to accept it. -/
def State.withFetchWord (s : State) (nbits w : Nat) : State :=
  { s with phase := .idle, host := .present (tableWord nbits w) :: s.host.tail }

end Sys2Proof.Machine
end

