-- ==== Sys2Proof/Safety.lean ====
section
/-! DEFINITION. The terms claims are stated in: the block's own state as one value, and the invariant of a safe run
(spec/10_state.md R20, R22, R25, R27, R32; spec/41_bus_capture.md R119). -/

namespace Sys2Proof.Machine

/-- "The complete state of the block" (R20): what of State is the hardware's. -/
structure Block where
  shift : List Frame
  phase : Phase
  acnt : BitVec 4
  bcnt : BitVec 6
  ow : Bool
  validCount : BitVec 8
  sck : Bool
  a : BitVec 4
  csN : Bool
  tc : Memory
  cj : Memory
deriving DecidableEq, Repr

/-- The block's state within State. -/
def State.block (s : State) : Block where
  shift := s.shift
  phase := s.phase
  acnt := s.acnt
  bcnt := s.bcnt
  ow := s.ow
  validCount := s.validCount
  sck := s.sck
  a := s.a
  csN := s.csN
  tc := s.tc
  cj := s.cj

/-- The two halves of the store are in canonical form and list store addresses only (R31, R50). -/
def State.StoreInv (s : State) : Prop :=
  s.tc.wf s.cfg.uninitialized ∧ s.cj.wf s.cfg.uninitialized ∧ s.tc.inRange s.cfg ∧ s.cj.inRange s.cfg

/-- Every stored Reading is one a decoder returns for some frame; unlisted ones are `UNINITIALIZED` (R32 (a), (b)). -/
def State.ReadingsInv (s : State) : Prop :=
  (∀ e ∈ s.tc, ∃ f, e.2 = decodeTc s.cfg f) ∧ (∀ e ∈ s.cj, ∃ f, e.2 = decodeCj f)

/-- The counters stay in their ranges and agree with the phase (R22, R119). -/
def State.SequencerInv (s : State) : Prop :=
  s.acnt.toNat < s.cfg.captures ∧ s.bcnt.toNat ≤ 32 ∧
  match s.phase with
  | .idle => s.acnt = 0#4 ∧ s.bcnt = 0#6
  | .setup => True
  | .rise => s.bcnt.toNat < 32
  | .sample => s.bcnt.toNat < 32
  | .low2 => 1 ≤ s.bcnt.toNat
  | .low3 => 1 ≤ s.bcnt.toNat
  | .commit => s.bcnt.toNat = 32
  | .finish => s.bcnt.toNat = 32 ∧ s.acnt.toNat + 1 = s.cfg.captures

/-- The phases between the SETUP tick and the COMMIT tick of a capture: the address, or the chip-select, is on the bus. -/
def Phase.capturing (p : Phase) : Bool :=
  match p with
  | .rise => true
  | .sample => true
  | .low2 => true
  | .low3 => true
  | .commit => true
  | .idle => false
  | .setup => false
  | .finish => false

/-- The pins agree with the phase, and the group the topology does not use holds its reset value (R27, R111, R115). -/
def State.PinInv (s : State) : Prop :=
  (s.sck = true ↔ s.phase = .sample) ∧
  match s.cfg.topology with
  | .addressMultiplexed =>
    s.csN = true ∧ s.a.toNat < s.cfg.addressCount ∧ (s.phase.capturing = true → s.a = s.acnt)
  | .chipSelectPerChannel => s.a = 0#4 ∧ (s.csN = false ↔ s.phase.capturing = true)

/-- The invariant of the machine: a legal instance (R24), one shift register per line (R21), and the parts above; the
status register never exceeds the number of entries (R25). -/
def State.Inv (s : State) : Prop :=
  s.cfg.legal = true ∧ s.shift.length = s.cfg.nLines ∧ s.validCount.toNat ≤ s.cfg.nHubs * s.cfg.nCh ∧
  s.StoreInv ∧ s.ReadingsInv ∧ s.SequencerInv ∧ s.PinInv

/-- When a command word is refused, in the words of R74 (a) to (e): `op`, `hub`, `ch`, `rsv` and `ow` are the fields of R70
as numbers. -/
def refusedWord (c : Config) (w : Word) : Prop :=
  let op := w.toNat / 4096
  let hub := w.toNat / 256 % 16
  let ch := w.toNat / 16 % 16
  let rsv := w.toNat / 2 % 8
  let ow := w.toNat % 2
  (op = 0 ∨ 8 ≤ op) ∨
  rsv ≠ 0 ∨
  ((op = 1 ∧ (hub ≠ 0 ∨ ch ≠ 0)) ∨ (2 ≤ op ∧ op ≤ 5 ∧ ow ≠ 0) ∨ (6 ≤ op ∧ op ≤ 7 ∧ (ch ≠ 0 ∨ ow ≠ 0))) ∨
  (2 ≤ op ∧ op ≤ 7 ∧ c.nHubs ≤ hub) ∨
  (2 ≤ op ∧ op ≤ 5 ∧ c.nCh ≤ ch)

/-- The pin events of one capture (R120): 32 times the clock rises, all lines are sampled, the clock falls. -/
def capturePulses : List PinEvent := (List.replicate 32 [.sck true, .sampled, .sck false]).flatten

/-- The pin events of a multiplexed sweep over `n` addresses, from a bus that holds `held` (R120): each address drive that
changes the bus, then its capture. -/
def multiplexedPulses (held : BitVec 4) : Nat → List PinEvent
  | 0 => []
  | n + 1 =>
    multiplexedPulses held n ++
      (if (if n = 0 then held else BitVec.ofNat 4 (n - 1)) = BitVec.ofNat 4 n then [] else [.address (BitVec.ofNat 4 n)]) ++
      capturePulses

end Sys2Proof.Machine
end

