-- ==== Sys2Proof/Certificates/Slice0/Obligations.lean ====
section
/-! DEFINITION. The statements for the provers, each from the numbered rules of spec/ its docstring cites. -/

open Sys2Proof Sys2Proof.Machine

/-! ### The command word -/

/-- Words written out from the encodings of R72 and the tables of spec/95_test_vectors.md section 5 decode to the command
they stand for, or to no command. -/
def Obligations.WordsOfTheOpcodeMapDecode : Prop :=
  decode 0b0001_0000_0000_000_0 = .ok (.sweep false) ∧
  decode 0b0001_0000_0000_000_1 = .ok (.sweep true) ∧
  decode 0b0010_0001_0011_000_0 = .ok (.rdtcC 1 3) ∧
  decode 0b0011_0001_0011_000_0 = .ok (.rdtcF 1 3) ∧
  decode 0b0100_0000_1111_000_0 = .ok (.rdcjC 0 15) ∧
  decode 0b0101_0000_1111_000_0 = .ok (.rdcjF 0 15) ∧
  decode 0b0110_0010_0000_000_0 = .ok (.avgcjC 2) ∧
  decode 0b0111_0001_0000_000_0 = .ok (.avgcjF 1) ∧
  decode 0x0000 = .reject .reservedOpcode ∧
  decode 0x8000 = .reject .reservedOpcode ∧
  decode 0xFFFF = .reject .reservedOpcode ∧
  decode 0x1002 = .reject .reservedBits ∧
  decode 0x1100 = .reject .unusedField ∧
  decode 0x2111 = .reject .unusedField ∧
  decode 0x6010 = .reject .unusedField

/-- R70, R72, R73: decoding the word of a well-formed command gives the command back, every operand at every value its
field admits. -/
def Obligations.DecodeOfEncodeIsTheCommand : Prop :=
  ∀ i : Instr, i.WellFormed → decode (encode i) = .ok i

/-- R70 to R73: a word that decodes is the word of the well-formed command it decodes to. -/
def Obligations.EncodeOfDecodeIsTheWord : Prop :=
  ∀ (w : Word) (i : Instr), decode w = .ok i → i.WellFormed ∧ encode i = w

/-- R71: a word spells the command of a row of the opcode map if and only if `(word & mask) == match`, and a word that
matches no row is refused by the decoder. -/
def Obligations.WordSpellsCommandExactlyByMask : Prop :=
  ∀ w : Word,
    (∀ r ∈ opcodeTable, (w &&& r.mask = r.value ↔ ∃ i, decode w = .ok i ∧ i.row = r)) ∧
    ((∀ r ∈ opcodeTable, w &&& r.mask ≠ r.value) ↔ ∃ e, decode w = .reject e)

/-! ### Stepping, refusal, reset -/

/-- R59, R119: an idle block of a legal instance with `rst = 0` that finds a command on its port runs it: the step is the
command's meaning, after the host's turn has been used up, the response port cleared and the tick counted. That a step is
a whole command (log 11), and the script of turns and the tick count (logs 2, 6), are the model's choice. -/
def Obligations.StepRunsTheDecodedCommand : Prop :=
  ∀ (s : State) (w : Word) (i : Instr),
    s.cfg.legal = true → s.phase = .idle → s.turn.asserts = false → s.turn.command = some w → decode w = .ok i →
    step s = exec i { s with host := s.host.tail, resp := none, tickNo := s.tickNo + 1 }

/-- A word placed by `State.withFetchWord` is what the very next step runs: how a word is placed is the model's choice
(log 10). -/
def Obligations.PlacedWordRunsNext : Prop :=
  ∀ (s : State) (nbits w : Nat) (i : Instr),
    s.cfg.legal = true → decodeTableWord nbits w = some i →
    step (s.withFetchWord nbits w) =
      exec i { s with phase := .idle, host := s.host.tail, resp := none, tickNo := s.tickNo + 1 }

/-- R74: a word that (a) has a reserved opcode, (b) nonzero reserved bits, (c) a nonzero unused field, (d) a hub or (e) a
channel the instance lacks is accepted, changes no state of the block, and is answered `Refused` in the same tick. That
the machine goes on (R170) and is not stopped by the model is the model's choice (log 12). -/
def Obligations.RefusedWordChangesNoState : Prop :=
  ∀ (s : State) (w : Word),
    s.cfg.legal = true → s.phase = .idle → s.turn.asserts = false → s.turn.command = some w → refusedWord s.cfg w →
    step s = .next { s with
      host := s.host.tail
      tickNo := s.tickNo + 1
      resp := some .refused
      responses := s.responses ++ [.refused] } ∧
    tick s = step s

/-- R119 (IDLE, no command accepted), R183: an idle block with nothing on its port holds every pin and register; only the
model's own script of turns and tick count move on (logs 2, 6). -/
def Obligations.QuietTickHoldsEverything : Prop :=
  ∀ s : State,
    s.cfg.legal = true → s.phase = .idle → s.turn.asserts = false → s.turn.command = none →
    step s = .next { s with host := s.host.tail, resp := none, tickNo := s.tickNo + 1 } ∧ tick s = step s

/-- R34, R190: a tick with `rst = 1`, whatever the phase and whatever is on the command port, leaves every piece of state
at its reset value, gives no response, accepts no command, and leaves the block ready. -/
def Obligations.ResetTickGivesTheResetValues : Prop :=
  ∀ s : State, s.cfg.legal = true → s.turn.asserts = true →
    ∃ t, step s = .next t ∧ tick s = .next t ∧
      t.shift = List.replicate s.cfg.nLines 0#32 ∧ t.phase = .idle ∧ t.acnt = 0#4 ∧ t.bcnt = 0#6 ∧ t.ow = false ∧
      t.validCount = 0#8 ∧ t.sck = false ∧ t.a = 0#4 ∧ t.csN = true ∧
      (∀ h c, t.readTc h c = s.cfg.uninitialized ∧ t.readCj h c = s.cfg.uninitialized) ∧
      t.resp = none ∧ t.responses = s.responses ∧ t.cmdReady = true ∧ t.cfg = s.cfg

/-- R191: at a reset tick each pin that does not hold its reset value moves to it, and nothing else is observed. The order
of the moves at that one edge (log 9) and what happens to the scripts and counters of the outside world (logs 2, 3, 6)
are the model's choice. -/
def Obligations.ResetTickMovesThePinsToTheirResetValues : Prop :=
  ∀ s : State, s.cfg.legal = true → s.turn.asserts = true →
    ∃ t, step s = .next t ∧
      t.pinHistory = s.pinHistory ++ (if s.sck = false then [] else [PinEvent.sck false]) ++
        (if s.a = 0#4 then [] else [PinEvent.address 0#4]) ++ (if s.csN = true then [] else [PinEvent.csN true]) ∧
      t.host = s.host.tail ∧ t.lines = s.lines ∧ t.sampleNo = s.sampleNo ∧ t.tickNo = s.tickNo + 1

/-- R192: a reset asserted in any tick of a running sweep (`k` ticks after its acceptance, the FINISH tick the last) stops
it: the block is at its reset values, the store with it, and the interrupted SWEEP gets no response. The script of turns
and the tick count are the model's (logs 2, 6). -/
def Obligations.ResetStopsARunningSweep : Prop :=
  ∀ (s : State) (ow : Bool) (k : Nat),
    s.cfg.legal = true → k < s.cfg.sweepTicks - 1 → noResetWithin k s.host = true →
    ((busyTurnsAfter k s.host).headD .quiet).asserts = true →
    ∃ t, exec (.sweep ow) s = .next t ∧ t.block = (State.resetOf s.cfg).block ∧ t.resp = none ∧
      t.responses = s.responses ∧ t.cfg = s.cfg ∧ t.tickNo = s.tickNo + k + 1

/-- R23, R197: while the block is busy a word on the command port is not accepted: a held word is kept for the next tick,
a word withdrawn has no effect, and the block does what it does when the port is quiet. `present` and `hold` are the
model's turns of a host (log 2). -/
def Obligations.BusyBlockAcceptsNoCommand : Prop :=
  ∀ (s : State) (w : Word) (ts : List HostTurn),
    s.cfg.legal = true → s.phase ≠ .idle →
    ∃ t, step { s with host := .quiet :: ts } = .next t ∧
      step { s with host := .present w :: ts } = .next t ∧
      step { s with host := .hold w :: ts } = .next { t with host := .hold w :: ts }

/-- R170: a legal instance has no fatal or abort path: from every state its step gives a next state. -/
def Obligations.LegalInstanceAlwaysSteps : Prop :=
  ∀ s : State, s.cfg.legal = true → (∃ t, step s = .next t) ∧ ∃ t, tick s = .next t

/-- R5, R24, R29: legality is exactly the spec's ranges. That an instance outside them (one with `T_TICK` below 100 ns too)
can be written down and is refused by `step` and `tick` is the model's choice (log 13). -/
def Obligations.IllegalInstanceIsRefused : Prop :=
  (∀ c : Config, c.legal = true ↔
    (c.topology = .addressMultiplexed →
      1 ≤ c.hubCount ∧ c.hubCount ≤ 10 ∧ 1 ≤ c.addressCount ∧ c.addressCount ≤ 16) ∧
    [c.faultOpen, c.faultShortToGround, c.faultShortToSupply, c.uninitialized, c.junctionOutOfRange].Nodup ∧
    (2047.75 : Reading) < c.faultOpen ∧ (2047.75 : Reading) < c.faultShortToGround ∧
    (2047.75 : Reading) < c.faultShortToSupply ∧ (2047.75 : Reading) < c.uninitialized ∧
    (2047.75 : Reading) < c.junctionOutOfRange ∧ 100 ≤ c.tTickNs) ∧
  ∀ s : State, s.cfg.legal = false → step s = .refused .illegalInstance ∧ tick s = .refused .illegalInstance

/-! ### The read commands: answer, frame, refusal and word -/

/-- R144: `RDTC.C` answers the stored thermocouple Reading, before any sweep `UNINITIALIZED`, and writes no state; an index
the instance lacks is refused. -/
def Obligations.RdtcCAnswersTheStoredReading : Prop :=
  ∀ (s : State) (hub ch : Nat),
    (hub < s.cfg.nHubs → ch < s.cfg.nCh →
      exec (.rdtcC hub ch) s = .next { s with
        resp := some (.reading (s.readTc hub ch))
        responses := s.responses ++ [.reading (s.readTc hub ch)] }) ∧
    (s.cfg.nHubs ≤ hub ∨ s.cfg.nCh ≤ ch →
      exec (.rdtcC hub ch) s = .next { s with resp := some .refused, responses := s.responses ++ [.refused] }) ∧
    (hub < 16 → ch < 16 →
      encode (.rdtcC hub ch) = 0x2000#16 ||| BitVec.ofNat 16 hub <<< 8 ||| BitVec.ofNat 16 ch <<< 4) ∧
    (s = State.resetOf s.cfg → s.readTc hub ch = s.cfg.uninitialized)

/-- R145, R148: `RDTC.F` answers `(9 * r + 160) / 5` of the stored thermocouple Reading, a sentinel too, and writes no
state. -/
def Obligations.RdtcFAnswersTheConvertedReading : Prop :=
  ∀ (s : State) (hub ch : Nat),
    (hub < s.cfg.nHubs → ch < s.cfg.nCh →
      exec (.rdtcF hub ch) s = .next { s with
        resp := some (.reading ((9 * s.readTc hub ch + 160) / 5))
        responses := s.responses ++ [.reading ((9 * s.readTc hub ch + 160) / 5)] }) ∧
    (s.cfg.nHubs ≤ hub ∨ s.cfg.nCh ≤ ch →
      exec (.rdtcF hub ch) s = .next { s with resp := some .refused, responses := s.responses ++ [.refused] }) ∧
    (hub < 16 → ch < 16 →
      encode (.rdtcF hub ch) = 0x3000#16 ||| BitVec.ofNat 16 hub <<< 8 ||| BitVec.ofNat 16 ch <<< 4)

/-- R146: `RDCJ.C` answers the stored junction Reading, with no range test, and writes no state. -/
def Obligations.RdcjCAnswersTheStoredReading : Prop :=
  ∀ (s : State) (hub ch : Nat),
    (hub < s.cfg.nHubs → ch < s.cfg.nCh →
      exec (.rdcjC hub ch) s = .next { s with
        resp := some (.reading (s.readCj hub ch))
        responses := s.responses ++ [.reading (s.readCj hub ch)] }) ∧
    (s.cfg.nHubs ≤ hub ∨ s.cfg.nCh ≤ ch →
      exec (.rdcjC hub ch) s = .next { s with resp := some .refused, responses := s.responses ++ [.refused] }) ∧
    (hub < 16 → ch < 16 →
      encode (.rdcjC hub ch) = 0x4000#16 ||| BitVec.ofNat 16 hub <<< 8 ||| BitVec.ofNat 16 ch <<< 4)

/-- R147, R148: `RDCJ.F` answers `(9 * r + 160) / 5` of the stored junction Reading and writes no state. -/
def Obligations.RdcjFAnswersTheConvertedReading : Prop :=
  ∀ (s : State) (hub ch : Nat),
    (hub < s.cfg.nHubs → ch < s.cfg.nCh →
      exec (.rdcjF hub ch) s = .next { s with
        resp := some (.reading ((9 * s.readCj hub ch + 160) / 5))
        responses := s.responses ++ [.reading ((9 * s.readCj hub ch + 160) / 5)] }) ∧
    (s.cfg.nHubs ≤ hub ∨ s.cfg.nCh ≤ ch →
      exec (.rdcjF hub ch) s = .next { s with resp := some .refused, responses := s.responses ++ [.refused] }) ∧
    (hub < 16 → ch < 16 →
      encode (.rdcjF hub ch) = 0x5000#16 ||| BitVec.ofNat 16 hub <<< 8 ||| BitVec.ofNat 16 ch <<< 4)

/-- R160, R161: `AVGCJ.C` answers the exact mean of the hub's junction Readings if all lie in [-10, 100], and
`JUNCTION_OUT_OF_RANGE` if any does not; it writes no state. -/
def Obligations.AvgcjCAnswersTheMeanOrRejects : Prop :=
  ∀ (s : State) (hub : Nat),
    (hub < s.cfg.nHubs → (∀ c < s.cfg.nCh, -10 ≤ s.readCj hub c ∧ s.readCj hub c ≤ 100) →
      exec (.avgcjC hub) s = .next { s with
        resp := some (.reading ((∑ c ∈ Finset.range s.cfg.nCh, s.readCj hub c) / s.cfg.nCh))
        responses := s.responses ++ [.reading ((∑ c ∈ Finset.range s.cfg.nCh, s.readCj hub c) / s.cfg.nCh)] }) ∧
    (hub < s.cfg.nHubs → (∃ c < s.cfg.nCh, s.readCj hub c < -10 ∨ 100 < s.readCj hub c) →
      exec (.avgcjC hub) s = .next { s with
        resp := some (.reading s.cfg.junctionOutOfRange)
        responses := s.responses ++ [.reading s.cfg.junctionOutOfRange] }) ∧
    (s.cfg.nHubs ≤ hub →
      exec (.avgcjC hub) s = .next { s with resp := some .refused, responses := s.responses ++ [.refused] }) ∧
    (hub < 16 → encode (.avgcjC hub) = 0x6000#16 ||| BitVec.ofNat 16 hub <<< 8)

/-- R163: `AVGCJ.F` answers `F(r) = (9 * r + 160) / 5` of what `AVGCJ.C` answers, of `JUNCTION_OUT_OF_RANGE` too; it writes
no state. -/
def Obligations.AvgcjFConvertsTheAverage : Prop :=
  ∀ (s : State) (hub : Nat),
    (hub < s.cfg.nHubs → (∀ c < s.cfg.nCh, -10 ≤ s.readCj hub c ∧ s.readCj hub c ≤ 100) →
      ∀ r, r = (9 * ((∑ c ∈ Finset.range s.cfg.nCh, s.readCj hub c) / s.cfg.nCh) + 160) / 5 →
      exec (.avgcjF hub) s = .next { s with resp := some (.reading r), responses := s.responses ++ [.reading r] }) ∧
    (hub < s.cfg.nHubs → (∃ c < s.cfg.nCh, s.readCj hub c < -10 ∨ 100 < s.readCj hub c) →
      ∀ r, r = (9 * s.cfg.junctionOutOfRange + 160) / 5 →
      exec (.avgcjF hub) s = .next { s with resp := some (.reading r), responses := s.responses ++ [.reading r] }) ∧
    (s.cfg.nHubs ≤ hub →
      exec (.avgcjF hub) s = .next { s with resp := some .refused, responses := s.responses ++ [.refused] }) ∧
    (hub < 16 → encode (.avgcjF hub) = 0x7000#16 ||| BitVec.ofNat 16 hub <<< 8)

/-- R162: a mean that `AVGCJ.C` answers lies in [-10, 100] and is no sentinel. -/
def Obligations.MeanLiesInThePlausibleRange : Prop :=
  ∀ (s : State) (hub : Nat), s.cfg.legal = true → hub < s.cfg.nHubs →
    (∀ c < s.cfg.nCh, -10 ≤ s.readCj hub c ∧ s.readCj hub c ≤ 100) →
    ∃ r t, exec (.avgcjC hub) s = .next t ∧ t.resp = some (.reading r) ∧ -10 ≤ r ∧ r ≤ 100 ∧
      s.cfg.isSentinel r = false

/-- R164, R193: before the first sweep (as long as both halves of the store hold what reset leaves) every read of an entry
answers `UNINITIALIZED` (or its Fahrenheit image) and every average `JUNCTION_OUT_OF_RANGE` (or its image), and the store
stays so. -/
def Obligations.BeforeTheFirstSweepNothingIsRead : Prop :=
  ∀ (s : State) (hub ch : Nat),
    s.cfg.legal = true → s.tc = [] → s.cj = [] → hub < s.cfg.nHubs → ch < s.cfg.nCh →
    ∃ t₁ t₂ t₃ t₄ t₅ t₆,
      exec (.rdtcC hub ch) s = .next t₁ ∧ t₁.resp = some (.reading s.cfg.uninitialized) ∧
      exec (.rdtcF hub ch) s = .next t₂ ∧ t₂.resp = some (.reading ((9 * s.cfg.uninitialized + 160) / 5)) ∧
      exec (.rdcjC hub ch) s = .next t₃ ∧ t₃.resp = some (.reading s.cfg.uninitialized) ∧
      exec (.rdcjF hub ch) s = .next t₄ ∧ t₄.resp = some (.reading ((9 * s.cfg.uninitialized + 160) / 5)) ∧
      exec (.avgcjC hub) s = .next t₅ ∧ t₅.resp = some (.reading s.cfg.junctionOutOfRange) ∧
      exec (.avgcjF hub) s = .next t₆ ∧ t₆.resp = some (.reading ((9 * s.cfg.junctionOutOfRange + 160) / 5)) ∧
      ∀ t ∈ [t₁, t₂, t₃, t₄, t₅, t₆], t.tc = [] ∧ t.cj = []

/-- R34, R144 to R147, R190, R193: the store stays as reset left it through every step that runs no SWEEP: quiet ticks,
reads, averages, refused words and resets; and a step in which a reset stops a SWEEP leaves it so again. -/
def Obligations.EmptyStoreStaysEmptyWithoutASweep : Prop :=
  ∀ s t : State, s.tc = [] → s.cj = [] → s.phase = .idle → step s = .next t →
    (s.turn.asserts = true ∨ (∀ w ow, s.turn.command = some w → decode w ≠ .ok (.sweep ow)) ∨
      ∃ k < s.cfg.sweepTicks - 1, noResetWithin k s.host.tail = true ∧
        ((busyTurnsAfter k s.host.tail).headD .quiet).asserts = true) →
    t.tc = [] ∧ t.cj = [] ∧ t.phase = .idle

/-- R166: the thermocouple half plays no part in an average. -/
def Obligations.AverageIgnoresThermocouples : Prop :=
  ∀ (s : State) (m : Memory) (hub : Nat),
    (∃ t, exec (.avgcjC hub) s = .next t ∧ exec (.avgcjC hub) { s with tc := m } = .next { t with tc := m }) ∧
    ∃ t, exec (.avgcjF hub) s = .next t ∧ exec (.avgcjF hub) { s with tc := m } = .next { t with tc := m }

/-- R31, R55, R191: of the seven commands only SWEEP changes the block's state or moves a pin. -/
def Obligations.OnlySweepChangesTheBlock : Prop :=
  ∀ (i : Instr) (s t : State), (∀ ow, i ≠ .sweep ow) → exec i s = .next t →
    t.block = s.block ∧ t.pinHistory = s.pinHistory ∧ t.cfg = s.cfg ∧ t.lines = s.lines ∧ t.sampleNo = s.sampleNo ∧
      t.host = s.host ∧ t.tickNo = s.tickNo ∧ ∃ r, t.resp = some r ∧ t.responses = s.responses ++ [r]

/-! ### Fahrenheit and sentinels -/

/-- R148: `F(r) = r * 9/5 + 32 = (9 * r + 160) / 5`, strictly increasing and one-to-one; of a multiple of 1/16 it is a
multiple of 1/80, not always a binary fraction; its values at 0, -40, 100, -10 and 25. -/
def Obligations.FahrenheitIsExactAndIncreasing : Prop :=
  (∀ r : Reading, fahrenheit r = r * (9 / 5) + 32 ∧ fahrenheit r = (9 * r + 160) / 5) ∧
  (∀ r q : Reading, r < q → fahrenheit r < fahrenheit q) ∧
  (∀ r q : Reading, fahrenheit r = fahrenheit q → r = q) ∧
  (∀ n : Int, ∃ m : Int, fahrenheit ((n : Reading) / 16) = (m : Reading) / 80) ∧
  (∃ n : Int, ∀ (m : Int) (k : Nat), fahrenheit ((n : Reading) / 16) ≠ (m : Reading) / 2 ^ k) ∧
  fahrenheit 0 = 32 ∧ fahrenheit (-40) = -40 ∧ fahrenheit 100 = 212 ∧ fahrenheit (-10) = 14 ∧ fahrenheit 25 = 77

/-- R30, R172: `SENTINEL_MIN` is the least of the five sentinels and exceeds every decodable number in a legal instance; a
Celsius Reading is a failure exactly at or above it, a Fahrenheit one exactly at or above its image. -/
def Obligations.SentinelThresholdTellsFailures : Prop :=
  ∀ c : Config,
    (c.sentinelMin ∈ c.sentinels ∧ ∀ x ∈ c.sentinels, c.sentinelMin ≤ x) ∧
    (c.legal = true → (2047.75 : Reading) < c.sentinelMin) ∧
    ∀ r : Reading, (c.isSentinel r = true ↔ c.sentinelMin ≤ r) ∧
      (c.isSentinel r = true ↔ fahrenheit c.sentinelMin ≤ fahrenheit r)

/-! ### The Frame Decoder -/

/-- R91: with bit 16 set the result depends on bits 2:0 alone, by the eight rows of the table. -/
def Obligations.FaultBitsAreHonouredInPriorityOrder : Prop :=
  ∀ (c : Config) (f : Frame), f.getLsbD 16 = true →
    decodeTc c f =
      match f.toNat % 8 with
      | 1 => c.faultOpen
      | 2 => c.faultShortToGround
      | 3 => c.faultOpen
      | 4 => c.faultShortToSupply
      | 5 => c.faultOpen
      | 6 => c.faultShortToGround
      | 7 => c.faultOpen
      | _ => c.untypedFault

/-- R94: on the no-fault path `DECODE_TC(frame) = sext_14(frame[31:18]) / 4`. -/
def Obligations.ThermocoupleFieldIsSignExtended : Prop :=
  ∀ (c : Config) (f : Frame), f.getLsbD 16 = false →
    decodeTc c f = ((f.extractLsb' 18 14).toInt : Reading) / 4

/-- R98: `DECODE_CJ(frame) = sext_12(frame[15:4]) / 16`, whatever bit 16 holds. -/
def Obligations.JunctionFieldIsSignExtended : Prop :=
  ∀ f : Frame, decodeCj f = ((f.extractLsb' 4 12).toInt : Reading) / 16

/-- R95, R99, R100: decoded numbers lie in -2048.00 .. 2047.75 in quarters, junctions in -128.0000 .. 127.9375 in
sixteenths, and no such number satisfies `is_sentinel` in a legal instance. -/
def Obligations.DecodedNumbersAreNoSentinels : Prop :=
  ∀ (c : Config) (f : Frame),
    (f.getLsbD 16 = false →
      (∃ n : Int, decodeTc c f = (n : Reading) / 4) ∧ -2048 ≤ decodeTc c f ∧ decodeTc c f ≤ 2047.75 ∧
      (c.legal = true → c.isSentinel (decodeTc c f) = false)) ∧
    (∃ n : Int, decodeCj f = (n : Reading) / 16) ∧ -128 ≤ decodeCj f ∧ decodeCj f ≤ 127.9375 ∧
    (c.legal = true → c.isSentinel (decodeCj f) = false)

/-- R81: `DECODE_TC` reads bits 31:18, 16 and 2:0 only (so never bits 17 and 3), bits 2:0 only with the fault flag set and
bits 31:18 only with it clear; `DECODE_CJ` reads bits 15:4 only, whatever the fault flag holds. -/
def Obligations.IgnoredFrameBitsNeverMatter : Prop :=
  ∀ (c : Config) (f g : Frame),
    (f.getLsbD 16 = g.getLsbD 16 → f.extractLsb' 18 14 = g.extractLsb' 18 14 →
      f.extractLsb' 0 3 = g.extractLsb' 0 3 → decodeTc c f = decodeTc c g) ∧
    (f.getLsbD 16 = false → g.getLsbD 16 = false → f.extractLsb' 18 14 = g.extractLsb' 18 14 →
      decodeTc c f = decodeTc c g) ∧
    (f.getLsbD 16 = true → g.getLsbD 16 = true → f.extractLsb' 0 3 = g.extractLsb' 0 3 →
      decodeTc c f = decodeTc c g) ∧
    (f.extractLsb' 4 12 = g.extractLsb' 4 12 → decodeCj f = decodeCj g)

/-! ### The Reading Store -/

/-- R140: `UPDATE` replaces the junction half of its entry always, the thermocouple half if and only if one of the three
conditions holds (read before the write), leaves every other entry and everything else alone, and keeps the canonical
form. -/
def Obligations.UpdateFollowsTheRetentionPolicy : Prop :=
  ∀ (s : State) (h c : Nat) (tc cj : Reading) (overwrite : Bool),
    s.tc.wf s.cfg.uninitialized → s.cj.wf s.cfg.uninitialized → c < 16 →
    ∀ t, t = update h c tc cj overwrite s →
      t.readCj h c = cj ∧
      t.readTc h c =
        (if overwrite = true ∨ s.cfg.isSentinel tc = false ∨ s.readTc h c = s.cfg.uninitialized then tc
         else s.readTc h c) ∧
      (∀ h' c', c' < 16 → (h', c') ≠ (h, c) →
        t.readTc h' c' = s.readTc h' c' ∧ t.readCj h' c' = s.readCj h' c') ∧
      t = { s with tc := t.tc, cj := t.cj } ∧
      t.tc.wf s.cfg.uninitialized ∧ t.cj.wf s.cfg.uninitialized

/-! ### The Bus Capture Protocol -/

/-- R111: `CAPTURE32` from a low clock ends with a low clock, has put the `k`-th sample of `D[l]` into `SHIFT[l][31-k]`
whatever the register held before, and its pin events are 32 times rise, sample, fall. -/
def Obligations.CaptureShiftsInEverySample : Prop :=
  ∀ s : State, s.sck = false →
    ∀ t, t = capture32 s →
      t.sck = false ∧ t.shift.length = s.shift.length ∧
      (∀ l < s.shift.length, ∀ k < 32, (t.lane l).getLsbD (31 - k) = (s.comingSample k).getLsbD l) ∧
      (∀ l < s.shift.length, t.lane l = s.captureFrame 0 l) ∧
      t.pinHistory = s.pinHistory ++ (List.replicate 32 [PinEvent.sck true, .sampled, .sck false]).flatten ∧
      t = { s with shift := t.shift, pinHistory := t.pinHistory, lines := t.lines, sampleNo := t.sampleNo }

/-- R119: at each tick of a running sweep the block does the action of its phase, row by row of the table; the scripts of
the host and of the lines, and the counters, are the model's (logs 2, 3, 6). -/
def Obligations.SequencerFollowsTheTable : Prop :=
  ∀ s b : State, s.cfg.legal = true → s.turn.asserts = false →
    b = { s with host := busyTurns s.host, resp := none, tickNo := s.tickNo + 1 } →
    (s.phase = .setup → s.cfg.topology = .addressMultiplexed →
      tick s = .next { b with
        a := s.acnt, bcnt := 0#6, phase := .rise
        pinHistory := s.pinHistory ++ (if s.a = s.acnt then [] else [.address s.acnt]) }) ∧
    (s.phase = .setup → s.cfg.topology = .chipSelectPerChannel →
      tick s = .next { b with
        csN := false, bcnt := 0#6, phase := .rise
        pinHistory := s.pinHistory ++ (if s.csN = false then [] else [.csN false]) }) ∧
    (s.phase = .rise →
      tick s = .next { b with
        sck := true, phase := .sample
        pinHistory := s.pinHistory ++ (if s.sck = true then [] else [.sck true]) }) ∧
    (s.phase = .sample →
      ∃ t, tick s = .next t ∧
        (∀ l < s.shift.length,
          t.lane l = (s.lane l).extractLsb' 0 31 ++ BitVec.ofBool ((s.comingSample 0).getLsbD l)) ∧
        t.shift.length = s.shift.length ∧
        t = { b with
          shift := t.shift, sck := false, bcnt := s.bcnt + 1#6, phase := .low2
          lines := s.lines.tail, sampleNo := s.sampleNo + 1
          pinHistory := s.pinHistory ++ [.sampled] ++ (if s.sck = false then [] else [.sck false]) }) ∧
    (s.phase = .low2 →
      tick s = .next { b with
        sck := false, phase := .low3
        pinHistory := s.pinHistory ++ (if s.sck = false then [] else [.sck false]) }) ∧
    (s.phase = .low3 → s.bcnt.toNat < 32 →
      tick s = .next { b with
        sck := false, phase := .rise
        pinHistory := s.pinHistory ++ (if s.sck = false then [] else [.sck false]) }) ∧
    (s.phase = .low3 → s.bcnt.toNat = 32 →
      tick s = .next { b with
        sck := false, phase := .commit
        pinHistory := s.pinHistory ++ (if s.sck = false then [] else [.sck false]) }) ∧
    (s.phase = .commit → s.cfg.topology = .addressMultiplexed → s.acnt.toNat + 1 < s.cfg.addressCount →
      tick s = .next { (List.range s.cfg.hubCount).foldl (fun u l =>
          update l s.acnt.toNat (decodeTc s.cfg (s.lane l)) (decodeCj (s.lane l)) s.ow u) b with
        acnt := s.acnt + 1#4, phase := .setup }) ∧
    (s.phase = .commit → s.cfg.topology = .addressMultiplexed → s.acnt.toNat + 1 = s.cfg.addressCount →
      tick s = .next { (List.range s.cfg.hubCount).foldl (fun u l =>
          update l s.acnt.toNat (decodeTc s.cfg (s.lane l)) (decodeCj (s.lane l)) s.ow u) b with
        phase := .finish }) ∧
    (s.phase = .commit → s.cfg.topology = .chipSelectPerChannel →
      tick s = .next { (List.range 16).foldl (fun u l =>
          update 0 l (decodeTc s.cfg (s.lane l)) (decodeCj (s.lane l)) s.ow u) b with
        csN := true, phase := .finish
        pinHistory := s.pinHistory ++ (if s.csN = true then [] else [.csN true]) }) ∧
    (s.phase = .finish →
      tick s = .next { b with
        validCount := BitVec.ofNat 8 s.countValid
        resp := some (.count (BitVec.ofNat 8 s.countValid).toNat)
        responses := s.responses ++ [.count (BitVec.ofNat 8 s.countValid).toNat]
        acnt := 0#4, bcnt := 0#6, phase := .idle })

/-- R119 (IDLE rows): at tick level an accepted SWEEP only latches `OW` and starts the sequencer; every other command is
done in its tick of acceptance. -/
def Obligations.AcceptingTickStartsASweep : Prop :=
  ∀ (s : State) (w : Word) (i : Instr),
    s.cfg.legal = true → s.phase = .idle → s.turn.asserts = false → s.turn.command = some w → decode w = .ok i →
    (∀ ow, i = .sweep ow →
      tick s = .next { s with
        ow := ow, acnt := 0#4, bcnt := 0#6, phase := .setup
        host := s.host.tail, resp := none, tickNo := s.tickNo + 1 }) ∧
    ((∀ ow, i ≠ .sweep ow) → tick s = step s)

/-- R116, R117: the meaning of SWEEP, run by the sequencer through all its ticks, is the pseudocode of the operation
level; beside it only the model's script of turns and tick count move on (logs 2, 6). -/
def Obligations.SweepMeetsItsPseudocode : Prop :=
  ∀ (s : State) (ow : Bool),
    s.cfg.legal = true → noResetWithin (s.cfg.sweepTicks - 1) s.host = true →
    exec (.sweep ow) s = .next { sweepOp ow s with
      host := busyTurnsAfter (s.cfg.sweepTicks - 1) s.host
      tickNo := s.tickNo + (s.cfg.sweepTicks - 1) }

/-- R120, R121: from the tick a SWEEP is accepted the tick level needs exactly `130 * ADDRESS_COUNT + 2` ticks
(multiplexed) or 132 (chip select), is busy and silent in between, and ends in the state the operation level gives in one
step. -/
def Obligations.TickLevelAgreesWithOperationLevel : Prop :=
  ∀ (s : State) (w : Word) (ow : Bool) (n : Nat),
    s.cfg.legal = true → s.phase = .idle → s.turn.asserts = false → s.turn.command = some w →
    decode w = .ok (.sweep ow) →
    n = (match s.cfg.topology with
      | .addressMultiplexed => 130 * s.cfg.addressCount + 2
      | .chipSelectPerChannel => 132) →
    noResetWithin (n - 1) s.host.tail = true →
    ∃ t, ticks n s = .next t ∧ step s = .next t ∧ t.phase = .idle ∧ t.tickNo = s.tickNo + n ∧
      t.resp = some (.count t.validCount.toNat) ∧ t.responses = s.responses ++ [.count t.validCount.toNat] ∧
      ∀ k, 0 < k → k < n →
        ∃ u, ticks k s = .next u ∧ u.busy = true ∧ u.cmdReady = false ∧ u.resp = none ∧ u.responses = s.responses

/-- R116 to R118, R142: after a SWEEP every entry of the instance holds what the frame delivered for it decodes to, the
junction half always and the thermocouple half by the retention policy, once; no other address changes; `VALID_COUNT` and
the response are the number of entries whose stored thermocouple Reading is below `SENTINEL_MIN`. -/
def Obligations.SweepUpdatesEveryEntryOnce : Prop :=
  ∀ (s : State) (ow : Bool),
    s.cfg.legal = true → s.shift.length = s.cfg.nLines →
    s.tc.wf s.cfg.uninitialized → s.cj.wf s.cfg.uninitialized →
    noResetWithin (s.cfg.sweepTicks - 1) s.host = true →
    ∃ t, exec (.sweep ow) s = .next t ∧
      (∀ h c, h < s.cfg.nHubs → c < s.cfg.nCh →
        ∀ f, f = s.captureFrame (s.cfg.captureOf c) (s.cfg.lineOf h c) →
          t.readCj h c = decodeCj f ∧
          t.readTc h c =
            (if ow = true ∨ s.cfg.isSentinel (decodeTc s.cfg f) = false ∨ s.readTc h c = s.cfg.uninitialized
             then decodeTc s.cfg f else s.readTc h c)) ∧
      (∀ h c, c < 16 → ¬(h < s.cfg.nHubs ∧ c < s.cfg.nCh) →
        t.readTc h c = s.readTc h c ∧ t.readCj h c = s.readCj h c) ∧
      t.validCount.toNat =
        ((Finset.range s.cfg.nHubs ×ˢ Finset.range s.cfg.nCh).filter
          fun e => t.readTc e.1 e.2 < s.cfg.sentinelMin).card ∧
      t.validCount.toNat ≤ s.cfg.nHubs * s.cfg.nCh ∧ s.cfg.nHubs * s.cfg.nCh ≤ 160 ∧
      t.resp = some (.count t.validCount.toNat) ∧ t.responses = s.responses ++ [.count t.validCount.toNat]

/-- R26, R122: what a SWEEP leaves in the registers and on the pins: `OW` its argument, the sequencer idle with its
counters at 0, `SCK` low, the bus on the last address or the chip-select high and the other pin group untouched, every
`SHIFT[l]` the last frame of its line; the configuration unchanged. That the line script loses 32 entries per capture is
the model's (log 3). -/
def Obligations.SweepLeavesPinsAndRegisters : Prop :=
  ∀ (s : State) (ow : Bool),
    s.cfg.legal = true → s.shift.length = s.cfg.nLines → noResetWithin (s.cfg.sweepTicks - 1) s.host = true →
    ∃ t, exec (.sweep ow) s = .next t ∧
      t.ow = ow ∧ t.phase = .idle ∧ t.acnt = 0#4 ∧ t.bcnt = 0#6 ∧ t.sck = false ∧
      (s.cfg.topology = .addressMultiplexed → t.a.toNat = s.cfg.addressCount - 1 ∧ t.csN = s.csN) ∧
      (s.cfg.topology = .chipSelectPerChannel → t.csN = true ∧ t.a = s.a) ∧
      t.shift.length = s.cfg.nLines ∧
      (∀ l < s.cfg.nLines, t.lane l = s.captureFrame (s.cfg.captures - 1) l) ∧
      t.cfg = s.cfg ∧ t.lines = s.lines.drop (32 * s.cfg.captures) ∧ t.sampleNo = s.sampleNo + 32 * s.cfg.captures

/-- R120: the pin history of a sweep from a low clock (and a high chip-select): per address a drive if it changes the bus,
then 32 times rise, sample, fall; or the chip-select's fall, the 32 pulses, its rise. -/
def Obligations.SweepPinHistoryIsInOrder : Prop :=
  ∀ (s : State) (ow : Bool),
    s.cfg.legal = true → s.sck = false → noResetWithin (s.cfg.sweepTicks - 1) s.host = true →
    ∃ t, exec (.sweep ow) s = .next t ∧
      (s.cfg.topology = .addressMultiplexed →
        t.pinHistory = s.pinHistory ++ multiplexedPulses s.a s.cfg.addressCount) ∧
      (s.cfg.topology = .chipSelectPerChannel → s.csN = true →
        t.pinHistory = s.pinHistory ++ [.csN false] ++ capturePulses ++ [.csN true])

/-- R151: two sweeps with `overwrite = false` and the same frames leave the same thermocouple Readings, junction Readings
and count after the second as after the first, from any starting store and for every `UNTYPED_FAULT`. The second may
start from any state `t'` that holds the store the first left in `t`: after reads and idle ticks in between. -/
def Obligations.SweepWithoutOverwriteIsIdempotent : Prop :=
  ∀ s t t' : State,
    s.cfg.legal = true → s.shift.length = s.cfg.nLines →
    s.tc.wf s.cfg.uninitialized → s.cj.wf s.cfg.uninitialized →
    noResetWithin (s.cfg.sweepTicks - 1) s.host = true → exec (.sweep false) s = .next t →
    t'.cfg = t.cfg → t'.tc = t.tc → t'.cj = t.cj → t'.shift.length = t.shift.length →
    noResetWithin (s.cfg.sweepTicks - 1) t'.host = true →
    (∀ n < s.cfg.captures, ∀ l < s.cfg.nLines, t'.captureFrame n l = s.captureFrame n l) →
    ∃ u, exec (.sweep false) t' = .next u ∧
      (∀ h c, h < s.cfg.nHubs → c < s.cfg.nCh → u.readTc h c = t.readTc h c ∧ u.readCj h c = t.readCj h c) ∧
      u.validCount = t.validCount

/-- R32 (c), R141, R164: after a completed sweep no junction entry is a sentinel, and no thermocouple entry is
`UNINITIALIZED` unless `UNTYPED_FAULT` was chosen so. -/
def Obligations.AfterASweepNothingIsUninitialized : Prop :=
  ∀ (s : State) (ow : Bool),
    s.Inv → noResetWithin (s.cfg.sweepTicks - 1) s.host = true →
    ∃ t, exec (.sweep ow) s = .next t ∧
      ∀ h c, h < s.cfg.nHubs → c < s.cfg.nCh →
        s.cfg.isSentinel (t.readCj h c) = false ∧
        (s.cfg.untypedFault ≠ s.cfg.uninitialized → t.readTc h c ≠ s.cfg.uninitialized)

/-- R35, R78: every accepted word gets exactly one response: a read and a refused word in its tick, a SWEEP when it ends; a
read command answers a Reading, a SWEEP a count, and nothing else is answered. The port says so: `resp_valid` is high,
`resp_ok` is low exactly for a refused word, `resp_kind` is COUNT and `resp_value` is `VALID_COUNT` for a SWEEP, and for a
read `resp_kind` is READING and `resp_value` is the answered Reading in `READING_FMT`. -/
def Obligations.ExactlyOneResponsePerCommand : Prop :=
  ∀ (s : State) (w : Word),
    s.cfg.legal = true → s.phase = .idle → s.turn.asserts = false → s.turn.command = some w →
    noResetWithin (s.cfg.sweepTicks - 1) s.host.tail = true →
    ∃ t r, step s = .next t ∧ t.resp = some r ∧ t.responses = s.responses ++ [r] ∧
      (refusedWord s.cfg w ↔ r = .refused) ∧
      ((∃ n, r = .count n) ↔ ∃ ow, decode w = .ok (.sweep ow)) ∧
      t.respValid = true ∧ (t.respOk = false ↔ refusedWord s.cfg w) ∧
      (∀ ow, decode w = .ok (.sweep ow) → t.respKindIsCount = true ∧ t.respValue = t.validCount.toNat) ∧
      (¬refusedWord s.cfg w → (∀ ow, decode w ≠ .ok (.sweep ow)) →
        t.respKindIsCount = false ∧ ∃ x, r = .reading x ∧ t.respValue = s.cfg.readingFmt x)

/-- R78, D1: `READING_FMT` represents exactly every multiple of 1/16 from -2048 to 2047.75 and the five sentinels: some
reader of the port gets each of them back from its code. How other values round is free (log 7). -/
def Obligations.ReadingFormatIsExactWhereItMust : Prop :=
  ∀ c : Config, ∃ decodeFmt : Nat → Reading,
    (∀ n : Int, -32768 ≤ n → n ≤ 32764 → decodeFmt (c.readingFmt ((n : Reading) / 16)) = (n : Reading) / 16) ∧
    ∀ r ∈ c.sentinels, decodeFmt (c.readingFmt r) = r

/-- R78, R95, R99: so every Reading a decoder returns for a frame, `UNTYPED_FAULT` apart, leaves the port unmerged with any
other. -/
def Obligations.DecodedReadingsKeepTheirCodes : Prop :=
  ∀ (c : Config) (f g : Frame),
    (c.readingFmt (decodeCj f) = c.readingFmt (decodeCj g) → decodeCj f = decodeCj g) ∧
    (¬(f.getLsbD 16 = true ∧ f.extractLsb' 0 3 = 0#3) → ¬(g.getLsbD 16 = true ∧ g.extractLsb' 0 3 = 0#3) →
      c.readingFmt (decodeTc c f) = c.readingFmt (decodeTc c g) → decodeTc c f = decodeTc c g)

/-- R35: with no response given in the tick, `resp_valid` is low: after a quiet tick, after a reset tick, and in every tick
of a running sweep but the FINISH tick. -/
def Obligations.RespValidIsLowWithoutAResponse : Prop :=
  ∀ s : State, s.cfg.legal = true →
    (s.turn.asserts = true ∨ (s.phase = .idle ∧ s.turn.command = none) ∨ (s.phase ≠ .idle ∧ s.phase ≠ .finish)) →
    ∃ t, tick s = .next t ∧ t.respValid = false ∧ t.responses = s.responses

/-! ### Invariants -/

/-- The invariant holds right after reset, of every legal instance and of `State.reset`. -/
def Obligations.ResetMeetsTheInvariant : Prop :=
  (∀ c : Config, c.legal = true → (State.resetOf c).Inv) ∧ State.reset.Inv

/-- R22, R25, R27, R32: every step keeps the invariant: the store in canonical form and filled with decoded Readings only,
the counters in range and in agreement with the phase, the pins in agreement with the phase, the unused pin group at its
reset value, the status register within the number of entries. -/
def Obligations.StepKeepsTheMachineInvariant : Prop :=
  ∀ s t : State, s.Inv → step s = .next t → t.Inv

/-- R22, R119: every tick keeps the invariant too, in the middle of a sweep. -/
def Obligations.TickKeepsTheMachineInvariant : Prop :=
  ∀ s t : State, s.Inv → tick s = .next t → t.Inv

/-- R32 (d): where the invariant holds, `JUNCTION_OUT_OF_RANGE` is never stored, unless `UNTYPED_FAULT` was chosen so. -/
def Obligations.OutOfRangeSentinelIsNeverStored : Prop :=
  ∀ (s : State) (h c : Nat), s.Inv →
    s.readCj h c ≠ s.cfg.junctionOutOfRange ∧
    (s.cfg.untypedFault ≠ s.cfg.junctionOutOfRange → s.readTc h c ≠ s.cfg.junctionOutOfRange)

/-- R24: the configuration is constant: no step of any kind, a reset included, changes it. -/
def Obligations.ConfigurationNeverChanges : Prop :=
  ∀ s t : State, (step s = .next t ∨ tick s = .next t) → t.cfg = s.cfg
end

