-- ==== Sys2Proof/Laws/State.lean ====
section
/-! SUPPORT. What each named update of State does to each field (Sys2Proof/Machine/Ops.lean), so that no proof unfolds a
record update: one lemma per field per update, true by definition. -/

namespace Sys2Proof.Machine

/-! ### `writeTc` -/

@[simp] theorem State.writeTc_shift (s : State) (h c : Nat) (r : Reading) : (s.writeTc h c r).shift = s.shift := rfl
@[simp] theorem State.writeTc_phase (s : State) (h c : Nat) (r : Reading) : (s.writeTc h c r).phase = s.phase := rfl
@[simp] theorem State.writeTc_acnt (s : State) (h c : Nat) (r : Reading) : (s.writeTc h c r).acnt = s.acnt := rfl
@[simp] theorem State.writeTc_bcnt (s : State) (h c : Nat) (r : Reading) : (s.writeTc h c r).bcnt = s.bcnt := rfl
@[simp] theorem State.writeTc_ow (s : State) (h c : Nat) (r : Reading) : (s.writeTc h c r).ow = s.ow := rfl
@[simp] theorem State.writeTc_validCount (s : State) (h c : Nat) (r : Reading) : (s.writeTc h c r).validCount = s.validCount := rfl
@[simp] theorem State.writeTc_sck (s : State) (h c : Nat) (r : Reading) : (s.writeTc h c r).sck = s.sck := rfl
@[simp] theorem State.writeTc_a (s : State) (h c : Nat) (r : Reading) : (s.writeTc h c r).a = s.a := rfl
@[simp] theorem State.writeTc_csN (s : State) (h c : Nat) (r : Reading) : (s.writeTc h c r).csN = s.csN := rfl
@[simp] theorem State.writeTc_tc (s : State) (h c : Nat) (r : Reading) : (s.writeTc h c r).tc = s.tc.write s.cfg.uninitialized (entryAddr h c) r := rfl
@[simp] theorem State.writeTc_cj (s : State) (h c : Nat) (r : Reading) : (s.writeTc h c r).cj = s.cj := rfl
@[simp] theorem State.writeTc_cfg (s : State) (h c : Nat) (r : Reading) : (s.writeTc h c r).cfg = s.cfg := rfl
@[simp] theorem State.writeTc_resp (s : State) (h c : Nat) (r : Reading) : (s.writeTc h c r).resp = s.resp := rfl
@[simp] theorem State.writeTc_responses (s : State) (h c : Nat) (r : Reading) : (s.writeTc h c r).responses = s.responses := rfl
@[simp] theorem State.writeTc_pinHistory (s : State) (h c : Nat) (r : Reading) : (s.writeTc h c r).pinHistory = s.pinHistory := rfl
@[simp] theorem State.writeTc_host (s : State) (h c : Nat) (r : Reading) : (s.writeTc h c r).host = s.host := rfl
@[simp] theorem State.writeTc_lines (s : State) (h c : Nat) (r : Reading) : (s.writeTc h c r).lines = s.lines := rfl
@[simp] theorem State.writeTc_sampleNo (s : State) (h c : Nat) (r : Reading) : (s.writeTc h c r).sampleNo = s.sampleNo := rfl
@[simp] theorem State.writeTc_tickNo (s : State) (h c : Nat) (r : Reading) : (s.writeTc h c r).tickNo = s.tickNo := rfl

/-! ### `writeCj` -/

@[simp] theorem State.writeCj_shift (s : State) (h c : Nat) (r : Reading) : (s.writeCj h c r).shift = s.shift := rfl
@[simp] theorem State.writeCj_phase (s : State) (h c : Nat) (r : Reading) : (s.writeCj h c r).phase = s.phase := rfl
@[simp] theorem State.writeCj_acnt (s : State) (h c : Nat) (r : Reading) : (s.writeCj h c r).acnt = s.acnt := rfl
@[simp] theorem State.writeCj_bcnt (s : State) (h c : Nat) (r : Reading) : (s.writeCj h c r).bcnt = s.bcnt := rfl
@[simp] theorem State.writeCj_ow (s : State) (h c : Nat) (r : Reading) : (s.writeCj h c r).ow = s.ow := rfl
@[simp] theorem State.writeCj_validCount (s : State) (h c : Nat) (r : Reading) : (s.writeCj h c r).validCount = s.validCount := rfl
@[simp] theorem State.writeCj_sck (s : State) (h c : Nat) (r : Reading) : (s.writeCj h c r).sck = s.sck := rfl
@[simp] theorem State.writeCj_a (s : State) (h c : Nat) (r : Reading) : (s.writeCj h c r).a = s.a := rfl
@[simp] theorem State.writeCj_csN (s : State) (h c : Nat) (r : Reading) : (s.writeCj h c r).csN = s.csN := rfl
@[simp] theorem State.writeCj_tc (s : State) (h c : Nat) (r : Reading) : (s.writeCj h c r).tc = s.tc := rfl
@[simp] theorem State.writeCj_cj (s : State) (h c : Nat) (r : Reading) : (s.writeCj h c r).cj = s.cj.write s.cfg.uninitialized (entryAddr h c) r := rfl
@[simp] theorem State.writeCj_cfg (s : State) (h c : Nat) (r : Reading) : (s.writeCj h c r).cfg = s.cfg := rfl
@[simp] theorem State.writeCj_resp (s : State) (h c : Nat) (r : Reading) : (s.writeCj h c r).resp = s.resp := rfl
@[simp] theorem State.writeCj_responses (s : State) (h c : Nat) (r : Reading) : (s.writeCj h c r).responses = s.responses := rfl
@[simp] theorem State.writeCj_pinHistory (s : State) (h c : Nat) (r : Reading) : (s.writeCj h c r).pinHistory = s.pinHistory := rfl
@[simp] theorem State.writeCj_host (s : State) (h c : Nat) (r : Reading) : (s.writeCj h c r).host = s.host := rfl
@[simp] theorem State.writeCj_lines (s : State) (h c : Nat) (r : Reading) : (s.writeCj h c r).lines = s.lines := rfl
@[simp] theorem State.writeCj_sampleNo (s : State) (h c : Nat) (r : Reading) : (s.writeCj h c r).sampleNo = s.sampleNo := rfl
@[simp] theorem State.writeCj_tickNo (s : State) (h c : Nat) (r : Reading) : (s.writeCj h c r).tickNo = s.tickNo := rfl

/-! ### `takeSample` -/

@[simp] theorem State.takeSample_shift (s : State) : (s.takeSample).shift = shiftLanes (s.comingSample 0) 0 s.shift := rfl
@[simp] theorem State.takeSample_phase (s : State) : (s.takeSample).phase = s.phase := rfl
@[simp] theorem State.takeSample_acnt (s : State) : (s.takeSample).acnt = s.acnt := rfl
@[simp] theorem State.takeSample_bcnt (s : State) : (s.takeSample).bcnt = s.bcnt := rfl
@[simp] theorem State.takeSample_ow (s : State) : (s.takeSample).ow = s.ow := rfl
@[simp] theorem State.takeSample_validCount (s : State) : (s.takeSample).validCount = s.validCount := rfl
@[simp] theorem State.takeSample_sck (s : State) : (s.takeSample).sck = s.sck := rfl
@[simp] theorem State.takeSample_a (s : State) : (s.takeSample).a = s.a := rfl
@[simp] theorem State.takeSample_csN (s : State) : (s.takeSample).csN = s.csN := rfl
@[simp] theorem State.takeSample_tc (s : State) : (s.takeSample).tc = s.tc := rfl
@[simp] theorem State.takeSample_cj (s : State) : (s.takeSample).cj = s.cj := rfl
@[simp] theorem State.takeSample_cfg (s : State) : (s.takeSample).cfg = s.cfg := rfl
@[simp] theorem State.takeSample_resp (s : State) : (s.takeSample).resp = s.resp := rfl
@[simp] theorem State.takeSample_responses (s : State) : (s.takeSample).responses = s.responses := rfl
@[simp] theorem State.takeSample_pinHistory (s : State) : (s.takeSample).pinHistory = s.pinHistory ++ [.sampled] := rfl
@[simp] theorem State.takeSample_host (s : State) : (s.takeSample).host = s.host := rfl
@[simp] theorem State.takeSample_lines (s : State) : (s.takeSample).lines = s.lines.tail := rfl
@[simp] theorem State.takeSample_sampleNo (s : State) : (s.takeSample).sampleNo = s.sampleNo + 1 := rfl
@[simp] theorem State.takeSample_tickNo (s : State) : (s.takeSample).tickNo = s.tickNo := rfl

/-! ### `driveSck` -/

@[simp] theorem State.driveSck_shift (b : Bool) (s : State) : (s.driveSck b).shift = s.shift := rfl
@[simp] theorem State.driveSck_phase (b : Bool) (s : State) : (s.driveSck b).phase = s.phase := rfl
@[simp] theorem State.driveSck_acnt (b : Bool) (s : State) : (s.driveSck b).acnt = s.acnt := rfl
@[simp] theorem State.driveSck_bcnt (b : Bool) (s : State) : (s.driveSck b).bcnt = s.bcnt := rfl
@[simp] theorem State.driveSck_ow (b : Bool) (s : State) : (s.driveSck b).ow = s.ow := rfl
@[simp] theorem State.driveSck_validCount (b : Bool) (s : State) : (s.driveSck b).validCount = s.validCount := rfl
@[simp] theorem State.driveSck_sck (b : Bool) (s : State) : (s.driveSck b).sck = b := rfl
@[simp] theorem State.driveSck_a (b : Bool) (s : State) : (s.driveSck b).a = s.a := rfl
@[simp] theorem State.driveSck_csN (b : Bool) (s : State) : (s.driveSck b).csN = s.csN := rfl
@[simp] theorem State.driveSck_tc (b : Bool) (s : State) : (s.driveSck b).tc = s.tc := rfl
@[simp] theorem State.driveSck_cj (b : Bool) (s : State) : (s.driveSck b).cj = s.cj := rfl
@[simp] theorem State.driveSck_cfg (b : Bool) (s : State) : (s.driveSck b).cfg = s.cfg := rfl
@[simp] theorem State.driveSck_resp (b : Bool) (s : State) : (s.driveSck b).resp = s.resp := rfl
@[simp] theorem State.driveSck_responses (b : Bool) (s : State) : (s.driveSck b).responses = s.responses := rfl
@[simp] theorem State.driveSck_pinHistory (b : Bool) (s : State) : (s.driveSck b).pinHistory = s.pinHistory ++ (if s.sck = b then [] else [.sck b]) := rfl
@[simp] theorem State.driveSck_host (b : Bool) (s : State) : (s.driveSck b).host = s.host := rfl
@[simp] theorem State.driveSck_lines (b : Bool) (s : State) : (s.driveSck b).lines = s.lines := rfl
@[simp] theorem State.driveSck_sampleNo (b : Bool) (s : State) : (s.driveSck b).sampleNo = s.sampleNo := rfl
@[simp] theorem State.driveSck_tickNo (b : Bool) (s : State) : (s.driveSck b).tickNo = s.tickNo := rfl

/-! ### `driveA` -/

@[simp] theorem State.driveA_shift (v : BitVec 4) (s : State) : (s.driveA v).shift = s.shift := rfl
@[simp] theorem State.driveA_phase (v : BitVec 4) (s : State) : (s.driveA v).phase = s.phase := rfl
@[simp] theorem State.driveA_acnt (v : BitVec 4) (s : State) : (s.driveA v).acnt = s.acnt := rfl
@[simp] theorem State.driveA_bcnt (v : BitVec 4) (s : State) : (s.driveA v).bcnt = s.bcnt := rfl
@[simp] theorem State.driveA_ow (v : BitVec 4) (s : State) : (s.driveA v).ow = s.ow := rfl
@[simp] theorem State.driveA_validCount (v : BitVec 4) (s : State) : (s.driveA v).validCount = s.validCount := rfl
@[simp] theorem State.driveA_sck (v : BitVec 4) (s : State) : (s.driveA v).sck = s.sck := rfl
@[simp] theorem State.driveA_a (v : BitVec 4) (s : State) : (s.driveA v).a = v := rfl
@[simp] theorem State.driveA_csN (v : BitVec 4) (s : State) : (s.driveA v).csN = s.csN := rfl
@[simp] theorem State.driveA_tc (v : BitVec 4) (s : State) : (s.driveA v).tc = s.tc := rfl
@[simp] theorem State.driveA_cj (v : BitVec 4) (s : State) : (s.driveA v).cj = s.cj := rfl
@[simp] theorem State.driveA_cfg (v : BitVec 4) (s : State) : (s.driveA v).cfg = s.cfg := rfl
@[simp] theorem State.driveA_resp (v : BitVec 4) (s : State) : (s.driveA v).resp = s.resp := rfl
@[simp] theorem State.driveA_responses (v : BitVec 4) (s : State) : (s.driveA v).responses = s.responses := rfl
@[simp] theorem State.driveA_pinHistory (v : BitVec 4) (s : State) : (s.driveA v).pinHistory = s.pinHistory ++ (if s.a = v then [] else [.address v]) := rfl
@[simp] theorem State.driveA_host (v : BitVec 4) (s : State) : (s.driveA v).host = s.host := rfl
@[simp] theorem State.driveA_lines (v : BitVec 4) (s : State) : (s.driveA v).lines = s.lines := rfl
@[simp] theorem State.driveA_sampleNo (v : BitVec 4) (s : State) : (s.driveA v).sampleNo = s.sampleNo := rfl
@[simp] theorem State.driveA_tickNo (v : BitVec 4) (s : State) : (s.driveA v).tickNo = s.tickNo := rfl

/-! ### `driveCsN` -/

@[simp] theorem State.driveCsN_shift (b : Bool) (s : State) : (s.driveCsN b).shift = s.shift := rfl
@[simp] theorem State.driveCsN_phase (b : Bool) (s : State) : (s.driveCsN b).phase = s.phase := rfl
@[simp] theorem State.driveCsN_acnt (b : Bool) (s : State) : (s.driveCsN b).acnt = s.acnt := rfl
@[simp] theorem State.driveCsN_bcnt (b : Bool) (s : State) : (s.driveCsN b).bcnt = s.bcnt := rfl
@[simp] theorem State.driveCsN_ow (b : Bool) (s : State) : (s.driveCsN b).ow = s.ow := rfl
@[simp] theorem State.driveCsN_validCount (b : Bool) (s : State) : (s.driveCsN b).validCount = s.validCount := rfl
@[simp] theorem State.driveCsN_sck (b : Bool) (s : State) : (s.driveCsN b).sck = s.sck := rfl
@[simp] theorem State.driveCsN_a (b : Bool) (s : State) : (s.driveCsN b).a = s.a := rfl
@[simp] theorem State.driveCsN_csN (b : Bool) (s : State) : (s.driveCsN b).csN = b := rfl
@[simp] theorem State.driveCsN_tc (b : Bool) (s : State) : (s.driveCsN b).tc = s.tc := rfl
@[simp] theorem State.driveCsN_cj (b : Bool) (s : State) : (s.driveCsN b).cj = s.cj := rfl
@[simp] theorem State.driveCsN_cfg (b : Bool) (s : State) : (s.driveCsN b).cfg = s.cfg := rfl
@[simp] theorem State.driveCsN_resp (b : Bool) (s : State) : (s.driveCsN b).resp = s.resp := rfl
@[simp] theorem State.driveCsN_responses (b : Bool) (s : State) : (s.driveCsN b).responses = s.responses := rfl
@[simp] theorem State.driveCsN_pinHistory (b : Bool) (s : State) : (s.driveCsN b).pinHistory = s.pinHistory ++ (if s.csN = b then [] else [.csN b]) := rfl
@[simp] theorem State.driveCsN_host (b : Bool) (s : State) : (s.driveCsN b).host = s.host := rfl
@[simp] theorem State.driveCsN_lines (b : Bool) (s : State) : (s.driveCsN b).lines = s.lines := rfl
@[simp] theorem State.driveCsN_sampleNo (b : Bool) (s : State) : (s.driveCsN b).sampleNo = s.sampleNo := rfl
@[simp] theorem State.driveCsN_tickNo (b : Bool) (s : State) : (s.driveCsN b).tickNo = s.tickNo := rfl

/-! ### `respond` -/

@[simp] theorem State.respond_shift (r : Response) (s : State) : (s.respond r).shift = s.shift := rfl
@[simp] theorem State.respond_phase (r : Response) (s : State) : (s.respond r).phase = s.phase := rfl
@[simp] theorem State.respond_acnt (r : Response) (s : State) : (s.respond r).acnt = s.acnt := rfl
@[simp] theorem State.respond_bcnt (r : Response) (s : State) : (s.respond r).bcnt = s.bcnt := rfl
@[simp] theorem State.respond_ow (r : Response) (s : State) : (s.respond r).ow = s.ow := rfl
@[simp] theorem State.respond_validCount (r : Response) (s : State) : (s.respond r).validCount = s.validCount := rfl
@[simp] theorem State.respond_sck (r : Response) (s : State) : (s.respond r).sck = s.sck := rfl
@[simp] theorem State.respond_a (r : Response) (s : State) : (s.respond r).a = s.a := rfl
@[simp] theorem State.respond_csN (r : Response) (s : State) : (s.respond r).csN = s.csN := rfl
@[simp] theorem State.respond_tc (r : Response) (s : State) : (s.respond r).tc = s.tc := rfl
@[simp] theorem State.respond_cj (r : Response) (s : State) : (s.respond r).cj = s.cj := rfl
@[simp] theorem State.respond_cfg (r : Response) (s : State) : (s.respond r).cfg = s.cfg := rfl
@[simp] theorem State.respond_resp (r : Response) (s : State) : (s.respond r).resp = some r := rfl
@[simp] theorem State.respond_responses (r : Response) (s : State) : (s.respond r).responses = s.responses ++ [r] := rfl
@[simp] theorem State.respond_pinHistory (r : Response) (s : State) : (s.respond r).pinHistory = s.pinHistory := rfl
@[simp] theorem State.respond_host (r : Response) (s : State) : (s.respond r).host = s.host := rfl
@[simp] theorem State.respond_lines (r : Response) (s : State) : (s.respond r).lines = s.lines := rfl
@[simp] theorem State.respond_sampleNo (r : Response) (s : State) : (s.respond r).sampleNo = s.sampleNo := rfl
@[simp] theorem State.respond_tickNo (r : Response) (s : State) : (s.respond r).tickNo = s.tickNo := rfl

/-! ### `beginTick` -/

@[simp] theorem State.beginTick_shift (s : State) : (s.beginTick).shift = s.shift := rfl
@[simp] theorem State.beginTick_phase (s : State) : (s.beginTick).phase = s.phase := rfl
@[simp] theorem State.beginTick_acnt (s : State) : (s.beginTick).acnt = s.acnt := rfl
@[simp] theorem State.beginTick_bcnt (s : State) : (s.beginTick).bcnt = s.bcnt := rfl
@[simp] theorem State.beginTick_ow (s : State) : (s.beginTick).ow = s.ow := rfl
@[simp] theorem State.beginTick_validCount (s : State) : (s.beginTick).validCount = s.validCount := rfl
@[simp] theorem State.beginTick_sck (s : State) : (s.beginTick).sck = s.sck := rfl
@[simp] theorem State.beginTick_a (s : State) : (s.beginTick).a = s.a := rfl
@[simp] theorem State.beginTick_csN (s : State) : (s.beginTick).csN = s.csN := rfl
@[simp] theorem State.beginTick_tc (s : State) : (s.beginTick).tc = s.tc := rfl
@[simp] theorem State.beginTick_cj (s : State) : (s.beginTick).cj = s.cj := rfl
@[simp] theorem State.beginTick_cfg (s : State) : (s.beginTick).cfg = s.cfg := rfl
@[simp] theorem State.beginTick_resp (s : State) : (s.beginTick).resp = none := rfl
@[simp] theorem State.beginTick_responses (s : State) : (s.beginTick).responses = s.responses := rfl
@[simp] theorem State.beginTick_pinHistory (s : State) : (s.beginTick).pinHistory = s.pinHistory := rfl
@[simp] theorem State.beginTick_host (s : State) : (s.beginTick).host = s.host.tail := rfl
@[simp] theorem State.beginTick_lines (s : State) : (s.beginTick).lines = s.lines := rfl
@[simp] theorem State.beginTick_sampleNo (s : State) : (s.beginTick).sampleNo = s.sampleNo := rfl
@[simp] theorem State.beginTick_tickNo (s : State) : (s.beginTick).tickNo = s.tickNo + 1 := rfl

/-! ### `beginBusyTick` -/

@[simp] theorem State.beginBusyTick_shift (s : State) : (s.beginBusyTick).shift = s.shift := rfl
@[simp] theorem State.beginBusyTick_phase (s : State) : (s.beginBusyTick).phase = s.phase := rfl
@[simp] theorem State.beginBusyTick_acnt (s : State) : (s.beginBusyTick).acnt = s.acnt := rfl
@[simp] theorem State.beginBusyTick_bcnt (s : State) : (s.beginBusyTick).bcnt = s.bcnt := rfl
@[simp] theorem State.beginBusyTick_ow (s : State) : (s.beginBusyTick).ow = s.ow := rfl
@[simp] theorem State.beginBusyTick_validCount (s : State) : (s.beginBusyTick).validCount = s.validCount := rfl
@[simp] theorem State.beginBusyTick_sck (s : State) : (s.beginBusyTick).sck = s.sck := rfl
@[simp] theorem State.beginBusyTick_a (s : State) : (s.beginBusyTick).a = s.a := rfl
@[simp] theorem State.beginBusyTick_csN (s : State) : (s.beginBusyTick).csN = s.csN := rfl
@[simp] theorem State.beginBusyTick_tc (s : State) : (s.beginBusyTick).tc = s.tc := rfl
@[simp] theorem State.beginBusyTick_cj (s : State) : (s.beginBusyTick).cj = s.cj := rfl
@[simp] theorem State.beginBusyTick_cfg (s : State) : (s.beginBusyTick).cfg = s.cfg := rfl
@[simp] theorem State.beginBusyTick_resp (s : State) : (s.beginBusyTick).resp = none := rfl
@[simp] theorem State.beginBusyTick_responses (s : State) : (s.beginBusyTick).responses = s.responses := rfl
@[simp] theorem State.beginBusyTick_pinHistory (s : State) : (s.beginBusyTick).pinHistory = s.pinHistory := rfl
@[simp] theorem State.beginBusyTick_host (s : State) : (s.beginBusyTick).host = busyTurns s.host := rfl
@[simp] theorem State.beginBusyTick_lines (s : State) : (s.beginBusyTick).lines = s.lines := rfl
@[simp] theorem State.beginBusyTick_sampleNo (s : State) : (s.beginBusyTick).sampleNo = s.sampleNo := rfl
@[simp] theorem State.beginBusyTick_tickNo (s : State) : (s.beginBusyTick).tickNo = s.tickNo + 1 := rfl

/-! ### `resetTick`: everything of R20 at its reset value, the outside world going on -/

@[simp] theorem resetTick_shift (s : State) : (resetTick s).shift = (State.resetOf s.cfg).shift := rfl
@[simp] theorem resetTick_phase (s : State) : (resetTick s).phase = (State.resetOf s.cfg).phase := rfl
@[simp] theorem resetTick_acnt (s : State) : (resetTick s).acnt = (State.resetOf s.cfg).acnt := rfl
@[simp] theorem resetTick_bcnt (s : State) : (resetTick s).bcnt = (State.resetOf s.cfg).bcnt := rfl
@[simp] theorem resetTick_ow (s : State) : (resetTick s).ow = (State.resetOf s.cfg).ow := rfl
@[simp] theorem resetTick_validCount (s : State) : (resetTick s).validCount = (State.resetOf s.cfg).validCount := rfl
@[simp] theorem resetTick_sck (s : State) : (resetTick s).sck = (State.resetOf s.cfg).sck := rfl
@[simp] theorem resetTick_a (s : State) : (resetTick s).a = (State.resetOf s.cfg).a := rfl
@[simp] theorem resetTick_csN (s : State) : (resetTick s).csN = (State.resetOf s.cfg).csN := rfl
@[simp] theorem resetTick_tc (s : State) : (resetTick s).tc = (State.resetOf s.cfg).tc := rfl
@[simp] theorem resetTick_cj (s : State) : (resetTick s).cj = (State.resetOf s.cfg).cj := rfl
@[simp] theorem resetTick_cfg (s : State) : (resetTick s).cfg = s.cfg := rfl
@[simp] theorem resetTick_resp (s : State) : (resetTick s).resp = (State.resetOf s.cfg).resp := rfl
@[simp] theorem resetTick_responses (s : State) : (resetTick s).responses = s.responses := rfl
@[simp] theorem resetTick_pinHistory (s : State) : (resetTick s).pinHistory = s.pinHistory ++ (if s.sck = false then [] else [.sck false]) ++ (if s.a = 0#4 then [] else [.address 0#4]) ++
      (if s.csN = true then [] else [.csN true]) := rfl
@[simp] theorem resetTick_host (s : State) : (resetTick s).host = s.host.tail := rfl
@[simp] theorem resetTick_lines (s : State) : (resetTick s).lines = s.lines := rfl
@[simp] theorem resetTick_sampleNo (s : State) : (resetTick s).sampleNo = s.sampleNo := rfl
@[simp] theorem resetTick_tickNo (s : State) : (resetTick s).tickNo = s.tickNo + 1 := rfl

end Sys2Proof.Machine
end

