-- ==== Sys2Proof/Laws/Memory.lean ====
section
/-! SUPPORT. The laws of the Reading Store's memory (Sys2Proof/Machine/Ops.lean): a read after a write, and that every
operation keeps the canonical form. -/

namespace Sys2Proof.Machine

theorem Memory.read_insert (d : Reading) (m : Memory) (k : Nat) (r : Reading) (k' : Nat) :
    (Memory.insert k r m).read d k' = if k' = k then r else m.read d k' := by
  induction m with
  | nil => simp [Memory.insert, Memory.read, eq_comm]
  | cons e m ih =>
    obtain ⟨a, x⟩ := e
    simp only [Memory.insert]
    split
    · simp [Memory.read, eq_comm]
    · split
      · next h =>
        subst h
        by_cases hk : k' = k
        · simp [Memory.read, hk]
        · simp [Memory.read, hk, Ne.symm hk]
      · simp only [Memory.read, ih]
        by_cases ha : a = k' <;> by_cases hk : k' = k <;> simp_all

theorem Memory.mem_insert {m : Memory} {k : Nat} {r : Reading} {e : Nat × Reading}
    (h : e ∈ Memory.insert k r m) : e = (k, r) ∨ e ∈ m := by
  induction m with
  | nil => simpa [Memory.insert] using h
  | cons x m ih =>
    obtain ⟨a, y⟩ := x
    simp only [Memory.insert] at h
    split at h
    · simpa using h
    · split at h
      · rcases List.mem_cons.1 h with h | h
        · exact .inl h
        · exact .inr (List.mem_cons_of_mem _ h)
      · rcases List.mem_cons.1 h with h | h
        · exact .inr (by simp [h])
        · exact (ih h).imp_right (List.mem_cons_of_mem _)

theorem Memory.mem_erase {m : Memory} {k : Nat} {e : Nat × Reading} (h : e ∈ Memory.erase k m) : e ∈ m := by
  induction m with
  | nil => exact h
  | cons x m ih =>
    obtain ⟨a, y⟩ := x
    simp only [Memory.erase] at h
    split at h
    · exact List.mem_cons_of_mem _ h
    · rcases List.mem_cons.1 h with h | h
      · simp [h]
      · exact List.mem_cons_of_mem _ (ih h)

/-- What a write may list: the entry written, or what was listed before. -/
theorem Memory.mem_write {d : Reading} {m : Memory} {k : Nat} {r : Reading} {e : Nat × Reading}
    (h : e ∈ m.write d k r) : e = (k, r) ∨ e ∈ m := by
  unfold Memory.write at h
  split at h
  · exact .inr (Memory.mem_erase h)
  · exact Memory.mem_insert h

theorem Memory.read_of_unlisted {d : Reading} {m : Memory} {k : Nat} (h : ∀ e ∈ m, e.1 ≠ k) : m.read d k = d := by
  induction m with
  | nil => rfl
  | cons x m ih =>
    obtain ⟨a, y⟩ := x
    have ha : a ≠ k := h (a, y) (by simp)
    simp only [Memory.read, ha, if_false]
    exact ih fun e he => h e (List.mem_cons_of_mem _ he)

/-- What a read answers is listed at that address, or is what an unlisted address reads as. -/
theorem Memory.read_cases (d : Reading) (m : Memory) (k : Nat) : (k, m.read d k) ∈ m ∨ m.read d k = d := by
  induction m with
  | nil => exact .inr rfl
  | cons x m ih =>
    obtain ⟨a, y⟩ := x
    by_cases ha : a = k
    · simp [Memory.read, ha]
    · simp only [Memory.read, ha, if_false, List.mem_cons]
      exact ih.imp_left .inr

theorem Memory.wf_nil (d : Reading) : Memory.wf d [] := by simp [Memory.wf]

theorem Memory.wf_tail {d : Reading} {x : Nat × Reading} {m : Memory} (h : Memory.wf d (x :: m)) : Memory.wf d m :=
  ⟨(List.pairwise_cons.1 h.1).2, fun e he => h.2 e (List.mem_cons_of_mem _ he)⟩

theorem Memory.lt_of_wf_cons {d : Reading} {a : Nat} {y : Reading} {m : Memory} (h : Memory.wf d ((a, y) :: m))
    {e : Nat × Reading} (he : e ∈ m) : a < e.1 :=
  (List.pairwise_cons.1 h.1).1 e.1 (List.mem_map_of_mem he)

theorem Memory.wf_cons {d : Reading} {a : Nat} {y : Reading} {m : Memory} (hm : Memory.wf d m) (hy : y ≠ d)
    (hlt : ∀ e ∈ m, a < e.1) : Memory.wf d ((a, y) :: m) := by
  refine ⟨List.pairwise_cons.2 ⟨?_, hm.1⟩, ?_⟩
  · intro k hk
    obtain ⟨e, he, rfl⟩ := List.mem_map.1 hk
    exact hlt e he
  · intro e he
    rcases List.mem_cons.1 he with rfl | he
    · exact hy
    · exact hm.2 e he

theorem Memory.insert_wf {d : Reading} {m : Memory} (hm : Memory.wf d m) (k : Nat) {r : Reading} (hr : r ≠ d) :
    Memory.wf d (Memory.insert k r m) := by
  induction m with
  | nil => exact Memory.wf_cons hm hr (by simp)
  | cons x m ih =>
    obtain ⟨a, y⟩ := x
    simp only [Memory.insert]
    split
    · next hk =>
      refine Memory.wf_cons hm hr fun e he => ?_
      rcases List.mem_cons.1 he with rfl | he
      · exact hk
      · exact hk.trans (Memory.lt_of_wf_cons hm he)
    · split
      · next hk =>
        subst hk
        exact Memory.wf_cons (Memory.wf_tail hm) hr fun e he => Memory.lt_of_wf_cons hm he
      · refine Memory.wf_cons (ih (Memory.wf_tail hm)) (hm.2 (a, y) (by simp)) fun e he => ?_
        rcases Memory.mem_insert he with rfl | he
        · dsimp only; omega
        · exact Memory.lt_of_wf_cons hm he

theorem Memory.erase_wf {d : Reading} {m : Memory} (hm : Memory.wf d m) (k : Nat) :
    Memory.wf d (Memory.erase k m) := by
  induction m with
  | nil => exact hm
  | cons x m ih =>
    obtain ⟨a, y⟩ := x
    simp only [Memory.erase]
    split
    · exact Memory.wf_tail hm
    · exact Memory.wf_cons (ih (Memory.wf_tail hm)) (hm.2 (a, y) (by simp)) fun e he =>
        Memory.lt_of_wf_cons hm (Memory.mem_erase he)

/-- A write keeps the canonical form. -/
theorem Memory.write_wf {d : Reading} {m : Memory} (hm : Memory.wf d m) (k : Nat) (r : Reading) :
    Memory.wf d (m.write d k r) := by
  unfold Memory.write
  split
  · exact Memory.erase_wf hm k
  · next hr => exact Memory.insert_wf hm k hr

theorem Memory.read_erase {d : Reading} {m : Memory} (hm : Memory.wf d m) (k k' : Nat) :
    (Memory.erase k m).read d k' = if k' = k then d else m.read d k' := by
  induction m with
  | nil => simp [Memory.erase, Memory.read]
  | cons x m ih =>
    obtain ⟨a, y⟩ := x
    simp only [Memory.erase]
    split
    · next hk =>
      subst hk
      by_cases hk' : k' = k
      · subst hk'
        simp only [if_true]
        exact Memory.read_of_unlisted fun e he => (Memory.lt_of_wf_cons hm he).ne'
      · simp [Memory.read, hk', Ne.symm hk']
    · simp only [Memory.read, ih (Memory.wf_tail hm)]
      by_cases ha : a = k' <;> by_cases hk : k' = k <;> simp_all

/-- A read after a write: the Reading written at its address, what was there elsewhere. -/
theorem Memory.read_write {d : Reading} {m : Memory} (hm : Memory.wf d m) (k : Nat) (r : Reading) (k' : Nat) :
    (m.write d k r).read d k' = if k' = k then r else m.read d k' := by
  unfold Memory.write
  split
  · next hr => rw [Memory.read_erase hm, hr]
  · exact Memory.read_insert d m k r k'

/-- A write at a store address keeps every listed address a store address. -/
theorem Memory.write_inRange {c : Config} {d : Reading} {m : Memory} (hm : Memory.inRange c m) {k : Nat} (r : Reading)
    (hk : k / 16 < c.nHubs ∧ k % 16 < c.nCh) : Memory.inRange c (m.write d k r) := by
  intro e he
  rcases Memory.mem_write he with rfl | he
  · exact hk
  · exact hm e he

theorem entryAddr_inj {h c h' c' : Nat} (hc : c < 16) (hc' : c' < 16) :
    entryAddr h c = entryAddr h' c' ↔ h = h' ∧ c = c' := by
  unfold entryAddr; omega

end Sys2Proof.Machine
end

