-- ==== Sys2Proof/Laws/Store.lean ====
section
/-! SUPPORT. What UPDATE and the UPDATEs of one capture can do (Sys2Proof/Machine/ReadingStore.lean,
BusCapture.lean): their record form, the reads after them, what they may list, what they leave alone. -/

namespace Sys2Proof.Machine

/-! ### `update` -/

/-- What UPDATE is, as one record update. -/
theorem update_eq (h c : Nat) (tc cj : Reading) (ow : Bool) (s : State) :
    update h c tc cj ow s =
      { s with
        cj := s.cj.write s.cfg.uninitialized (entryAddr h c) cj
        tc := if replacesTc s.cfg ow (s.readTc h c) tc then s.tc.write s.cfg.uninitialized (entryAddr h c) tc
              else s.tc } := by
  unfold update; split <;> rfl

theorem replacesTc_iff (c : Config) (ow : Bool) (old new : Reading) :
    replacesTc c ow old new = true ↔ ow = true ∨ c.isSentinel new = false ∨ old = c.uninitialized := by
  simp [replacesTc, or_assoc]

/-- The Reading an UPDATE leaves in the thermocouple half (R143). -/
def retainedTc (c : Config) (ow : Bool) (old new : Reading) : Reading :=
  if replacesTc c ow old new then new else old

theorem update_readCj {s : State} (hw : s.cj.wf s.cfg.uninitialized) {h c : Nat} (hc : c < 16) (tc cj : Reading)
    (ow : Bool) {h' c' : Nat} (hc' : c' < 16) :
    (update h c tc cj ow s).readCj h' c' = if (h', c') = (h, c) then cj else s.readCj h' c' := by
  rw [update_eq]
  simp only [State.readCj, Memory.read_write hw, entryAddr_inj hc' hc, Prod.mk.injEq]

theorem update_readTc {s : State} (hw : s.tc.wf s.cfg.uninitialized) {h c : Nat} (hc : c < 16) (tc cj : Reading)
    (ow : Bool) {h' c' : Nat} (hc' : c' < 16) :
    (update h c tc cj ow s).readTc h' c' =
      if (h', c') = (h, c) then retainedTc s.cfg ow (s.readTc h c) tc else s.readTc h' c' := by
  rw [update_eq, retainedTc]
  by_cases hr : replacesTc s.cfg ow (s.readTc h c) tc = true
  · simp only [State.readTc, hr, if_true] at *
    simp only [Memory.read_write hw, entryAddr_inj hc' hc, Prod.mk.injEq]
  · simp only [hr]
    by_cases he : (h', c') = (h, c)
    · simp only [Prod.mk.injEq] at he
      obtain ⟨rfl, rfl⟩ := he
      simp [State.readTc]
    · simp [State.readTc, he]

theorem update_wf {s : State} (ht : s.tc.wf s.cfg.uninitialized) (hj : s.cj.wf s.cfg.uninitialized) (h c : Nat)
    (tc cj : Reading) (ow : Bool) :
    (update h c tc cj ow s).tc.wf s.cfg.uninitialized ∧ (update h c tc cj ow s).cj.wf s.cfg.uninitialized := by
  rw [update_eq]
  refine ⟨?_, Memory.write_wf hj _ _⟩
  dsimp only
  split
  · exact Memory.write_wf ht _ _
  · exact ht

/-- What an UPDATE may list: its own entry, or what was listed before. -/
theorem update_mem_tc {s : State} {h c : Nat} {tc cj : Reading} {ow : Bool} {e : Nat × Reading}
    (he : e ∈ (update h c tc cj ow s).tc) : e = (entryAddr h c, tc) ∨ e ∈ s.tc := by
  rw [update_eq] at he
  dsimp only at he
  split at he
  · exact Memory.mem_write he
  · exact .inr he

theorem update_mem_cj {s : State} {h c : Nat} {tc cj : Reading} {ow : Bool} {e : Nat × Reading}
    (he : e ∈ (update h c tc cj ow s).cj) : e = (entryAddr h c, cj) ∨ e ∈ s.cj := by
  rw [update_eq] at he
  exact Memory.mem_write he

/-! ### `updateLines` -/

/-- A chain of UPDATEs changes the two halves of the store and nothing else. -/
theorem foldl_updateLine_store (a : Nat) (ow : Bool) (ls : List Nat) (s : State) :
    ∃ tc cj, ls.foldl (updateLine a ow) s = { s with tc := tc, cj := cj } := by
  induction ls generalizing s with
  | nil => exact ⟨s.tc, s.cj, rfl⟩
  | cons l ls ih =>
    obtain ⟨tc, cj, h⟩ := ih (updateLine a ow s l)
    refine ⟨tc, cj, ?_⟩
    rw [List.foldl_cons, h, updateLine, update_eq]

theorem updateLines_frame (a : Nat) (ow : Bool) (s : State) :
    updateLines a ow s = { s with tc := (updateLines a ow s).tc, cj := (updateLines a ow s).cj } := by
  obtain ⟨tc, cj, h⟩ := foldl_updateLine_store a ow (List.range s.cfg.nLines) s
  rw [updateLines, h]

theorem foldl_updateLine_wf (a : Nat) (ow : Bool) (ls : List Nat) {s : State} (ht : s.tc.wf s.cfg.uninitialized)
    (hj : s.cj.wf s.cfg.uninitialized) :
    (ls.foldl (updateLine a ow) s).tc.wf s.cfg.uninitialized ∧
      (ls.foldl (updateLine a ow) s).cj.wf s.cfg.uninitialized := by
  induction ls generalizing s with
  | nil => exact ⟨ht, hj⟩
  | cons l ls ih =>
    obtain ⟨h1, h2⟩ := update_wf ht hj (entryOfLine s.cfg a l).1 (entryOfLine s.cfg a l).2 (decodeTc s.cfg (s.lane l))
      (decodeCj (s.lane l)) ow
    have hcfg : (updateLine a ow s l).cfg = s.cfg := by rw [updateLine, update_eq]
    have := ih (s := updateLine a ow s l) (by rw [hcfg]; exact h1) (by rw [hcfg]; exact h2)
    rwa [hcfg] at this

theorem updateLines_wf (a : Nat) (ow : Bool) {s : State} (ht : s.tc.wf s.cfg.uninitialized)
    (hj : s.cj.wf s.cfg.uninitialized) :
    (updateLines a ow s).tc.wf s.cfg.uninitialized ∧ (updateLines a ow s).cj.wf s.cfg.uninitialized :=
  foldl_updateLine_wf a ow _ ht hj

/-- The fields an UPDATE leaves alone, as UPDATE of a line. -/
theorem updateLine_cfg (a : Nat) (ow : Bool) (s : State) (l : Nat) : (updateLine a ow s l).cfg = s.cfg := by
  rw [updateLine, update_eq]

theorem updateLine_lane (a : Nat) (ow : Bool) (s : State) (l k : Nat) : (updateLine a ow s l).lane k = s.lane k := by
  rw [updateLine, update_eq]; rfl

/-- The channel index of a line's entry fits the store's rows. -/
theorem entryOfLine_lt {c : Config} {a l : Nat} (ha : a < 16) (hl : l < 16) : (entryOfLine c a l).2 < 16 := by
  unfold entryOfLine; split <;> assumption

theorem entryOfLine_inj {c : Config} {a l l' : Nat} (h : entryOfLine c a l = entryOfLine c a l') : l = l' := by
  unfold entryOfLine at h; split at h <;> simpa using h

/-- After the UPDATEs of distinct lines: each line's entry holds what its frame decodes to, every other entry is as it was. -/
theorem foldl_updateLine_read (a : Nat) (ow : Bool) (ls : List Nat) {s : State}
    (ht : s.tc.wf s.cfg.uninitialized) (hj : s.cj.wf s.cfg.uninitialized) (ha : a < 16) (hls : ∀ l ∈ ls, l < 16)
    (hnd : ls.Nodup) {h c : Nat} (hc : c < 16) :
    (∀ l ∈ ls, entryOfLine s.cfg a l = (h, c) →
      (ls.foldl (updateLine a ow) s).readCj h c = decodeCj (s.lane l) ∧
      (ls.foldl (updateLine a ow) s).readTc h c =
        retainedTc s.cfg ow (s.readTc h c) (decodeTc s.cfg (s.lane l))) ∧
    ((∀ l ∈ ls, entryOfLine s.cfg a l ≠ (h, c)) →
      (ls.foldl (updateLine a ow) s).readCj h c = s.readCj h c ∧
      (ls.foldl (updateLine a ow) s).readTc h c = s.readTc h c) := by
  induction ls generalizing s with
  | nil => simp
  | cons l ls ih =>
    have hl : l < 16 := hls l (by simp)
    have he := entryOfLine_lt (c := s.cfg) ha hl
    obtain ⟨h1, h2⟩ := update_wf ht hj (entryOfLine s.cfg a l).1 (entryOfLine s.cfg a l).2 (decodeTc s.cfg (s.lane l))
      (decodeCj (s.lane l)) ow
    have hcfg := updateLine_cfg a ow s l
    have hI := ih (s := updateLine a ow s l) (by rw [hcfg]; exact h1) (by rw [hcfg]; exact h2)
      (fun x hx => hls x (by simp [hx])) (List.nodup_cons.1 hnd).2
    simp only [hcfg, updateLine_lane] at hI
    have rj : (updateLine a ow s l).readCj h c =
        if (h, c) = entryOfLine s.cfg a l then decodeCj (s.lane l) else s.readCj h c :=
      update_readCj hj he _ _ _ hc
    have rt : (updateLine a ow s l).readTc h c =
        if (h, c) = entryOfLine s.cfg a l then
          retainedTc s.cfg ow (s.readTc (entryOfLine s.cfg a l).1 (entryOfLine s.cfg a l).2) (decodeTc s.cfg (s.lane l))
        else s.readTc h c :=
      update_readTc ht he _ _ _ hc
    simp only [List.foldl_cons, List.mem_cons, forall_eq_or_imp]
    by_cases hle : entryOfLine s.cfg a l = (h, c)
    · have hno : ∀ x ∈ ls, entryOfLine s.cfg a x ≠ (h, c) := by
        intro x hx hxe
        rw [entryOfLine_inj (hxe.trans hle.symm)] at hx
        exact (List.nodup_cons.1 hnd).1 hx
      obtain ⟨e1, e2⟩ := hI.2 hno
      refine ⟨⟨fun _ => ?_, fun x hx hxe => absurd hxe (hno x hx)⟩, fun hc => absurd hle hc.1⟩
      rw [e1, e2, rj, rt, hle]
      simp
    · have hle' : ¬ (h, c) = entryOfLine s.cfg a l := fun h => hle h.symm
      rw [if_neg hle'] at rj rt
      rw [rj, rt] at hI
      exact ⟨⟨fun h => absurd h hle, hI.1⟩, fun h => hI.2 h.2⟩

/-- What the UPDATEs of one capture may list. -/
theorem foldl_updateLine_mem (a : Nat) (ow : Bool) (ls : List Nat) {s : State} :
    (∀ e ∈ (ls.foldl (updateLine a ow) s).tc, e ∈ s.tc ∨ ∃ l ∈ ls,
      e = (entryAddr (entryOfLine s.cfg a l).1 (entryOfLine s.cfg a l).2, decodeTc s.cfg (s.lane l))) ∧
    (∀ e ∈ (ls.foldl (updateLine a ow) s).cj, e ∈ s.cj ∨ ∃ l ∈ ls,
      e = (entryAddr (entryOfLine s.cfg a l).1 (entryOfLine s.cfg a l).2, decodeCj (s.lane l))) := by
  induction ls generalizing s with
  | nil => simp
  | cons l ls ih =>
    obtain ⟨i1, i2⟩ := ih (s := updateLine a ow s l)
    simp only [updateLine_cfg, updateLine_lane] at i1 i2
    refine ⟨fun e he => ?_, fun e he => ?_⟩
    · rcases i1 e he with h | ⟨x, hx, h⟩
      · rcases update_mem_tc h with h | h
        · exact .inr ⟨l, by simp, h⟩
        · exact .inl h
      · exact .inr ⟨x, by simp [hx], h⟩
    · rcases i2 e he with h | ⟨x, hx, h⟩
      · rcases update_mem_cj h with h | h
        · exact .inr ⟨l, by simp, h⟩
        · exact .inl h
      · exact .inr ⟨x, by simp [hx], h⟩

end Sys2Proof.Machine
end

