-- ==== Sys2Proof/Laws/Capture.lean ====
section
/-! SUPPORT. Samples, shift registers, bit cycles and CAPTURE32 (Sys2Proof/Machine/BusCapture.lean). -/

namespace Sys2Proof.Machine

/-! ### Samples -/

theorem comingSample_takeSample (s : State) (k : Nat) : s.takeSample.comingSample k = s.comingSample (k + 1) := by
  have hn : s.sampleNo + 1 + k = s.sampleNo + (k + 1) := by omega
  cases h : s.lines with
  | nil => simp [State.comingSample, h, hn]
  | cons d ds => simp [State.comingSample, h, hn]

/-! ### Shift registers -/

@[simp] theorem shiftLanes_length (d : LineLevels) (l : Nat) (vs : List Frame) :
    (shiftLanes d l vs).length = vs.length := by
  induction vs generalizing l with
  | nil => rfl
  | cons v vs ih => simp [shiftLanes, ih]

theorem shiftLanes_getD (d : LineLevels) (i : Nat) (vs : List Frame) (l : Nat) (h : l < vs.length) :
    (shiftLanes d i vs).getD l 0#32 = shiftIn (vs.getD l 0#32) (d.getLsbD (i + l)) := by
  induction vs generalizing i l with
  | nil => simp at h
  | cons v vs ih =>
    cases l with
    | zero => simp [shiftLanes]
    | succ l =>
      have := ih (i + 1) l (by simpa using h)
      simp only [shiftLanes, List.getD_cons_succ, this]
      congr 2; omega

theorem takeSample_lane (s : State) (l : Nat) (h : l < s.shift.length) :
    s.takeSample.lane l = shiftIn (s.lane l) ((s.comingSample 0).getLsbD l) := by
  simp only [State.lane, State.takeSample_shift]
  rw [shiftLanes_getD _ _ _ _ h, Nat.zero_add]

theorem shiftIn_getLsbD (v : Frame) (b : Bool) (i : Nat) (hi : i < 32) :
    (shiftIn v b).getLsbD i = if i = 0 then b else v.getLsbD (i - 1) := by
  unfold shiftIn
  rw [BitVec.getLsbD_append]
  by_cases h0 : i = 0
  · subst h0; simp
  · have : ¬ i < 1 := by omega
    simp only [this, h0, if_false, BitVec.getLsbD_extractLsb', Nat.zero_add]
    have : i - 1 < 31 := by omega
    simp [this]

/-- The bits of a register after `n` shifts: the samples below, the old content above. -/
theorem foldl_shiftIn_getLsbD (b : Nat → Bool) (n : Nat) (v : Frame) (i : Nat) (hi : i < 32) :
    ((List.range n).foldl (fun f k => shiftIn f (b k)) v).getLsbD i =
      if i < n then b (n - 1 - i) else v.getLsbD (i - n) := by
  induction n generalizing i with
  | zero => simp
  | succ n ih =>
    rw [List.range_succ, List.foldl_append, List.foldl_cons, List.foldl_nil, shiftIn_getLsbD _ _ _ hi]
    by_cases h0 : i = 0
    · subst h0; simp
    · rw [if_neg h0, ih (i - 1) (by omega)]
      by_cases h : i < n + 1
      · rw [if_pos h, if_pos (by omega)]; congr 1; omega
      · rw [if_neg h, if_neg (by omega)]; congr 1; omega

/-- Thirty-two shifts replace all of a register (R21). -/
theorem foldl_shiftIn_32 (b : Nat → Bool) (v : Frame) :
    (List.range 32).foldl (fun f k => shiftIn f (b k)) v = (List.range 32).foldl (fun f k => shiftIn f (b k)) 0#32 := by
  apply BitVec.eq_of_getLsbD_eq
  intro i hi
  rw [foldl_shiftIn_getLsbD _ _ _ _ hi, foldl_shiftIn_getLsbD _ _ _ _ hi, if_pos hi, if_pos hi]

theorem captureFrame_getLsbD (s : State) (n l k : Nat) (hk : k < 32) :
    (s.captureFrame n l).getLsbD (31 - k) = (s.comingSample (32 * n + k)).getLsbD l := by
  rw [State.captureFrame, foldl_shiftIn_getLsbD (fun k => (s.comingSample (32 * n + k)).getLsbD l) _ _ _ (by omega)]
  rw [if_pos (by omega)]
  congr 3; omega

/-! ### Bit cycles -/

/-- The pin events of one bit cycle from a low clock. -/
def bitCyclePulse : List PinEvent := [.sck true, .sampled, .sck false]

/-- A bit cycle from a low clock, as one record update. -/
theorem bitCycle_eq {s : State} (h : s.sck = false) :
    bitCycle s = { s with
      shift := shiftLanes (s.comingSample 0) 0 s.shift
      lines := s.lines.tail
      sampleNo := s.sampleNo + 1
      pinHistory := s.pinHistory ++ bitCyclePulse } := by
  have hc : (s.driveSck true).comingSample 0 = s.comingSample 0 := rfl
  simp [bitCycle, State.driveSck, State.takeSample, h, bitCyclePulse]
  rfl

theorem bitCycles_succ (n : Nat) (s : State) : bitCycles (n + 1) s = bitCycle (bitCycles n s) := by
  induction n generalizing s with
  | zero => rfl
  | succ n ih => rw [bitCycles, ih]; rfl

theorem bitCycle_comingSample (s : State) (k : Nat) : (bitCycle s).comingSample k = s.comingSample (k + 1) :=
  comingSample_takeSample (s.driveSck true) k

theorem bitCycles_comingSample (n : Nat) (s : State) (k : Nat) :
    (bitCycles n s).comingSample k = s.comingSample (n + k) := by
  induction n generalizing k with
  | zero => simp [bitCycles]
  | succ n ih => rw [bitCycles_succ, bitCycle_comingSample, ih]; congr 1; omega

/-- `n` bit cycles from a low clock: everything but the shift registers in closed form. -/
theorem bitCycles_eq (n : Nat) {s : State} (h : s.sck = false) :
    bitCycles n s = { s with
      shift := (bitCycles n s).shift
      lines := s.lines.drop n
      sampleNo := s.sampleNo + n
      pinHistory := s.pinHistory ++ (List.replicate n bitCyclePulse).flatten } := by
  induction n with
  | zero => simp [bitCycles]
  | succ n ih =>
    have hs : (bitCycles n s).sck = false := by rw [ih]; exact h
    rw [bitCycles_succ, bitCycle_eq hs]
    rw [ih]
    simp [List.replicate_succ', Nat.add_assoc]

theorem bitCycles_shift_length (n : Nat) (s : State) : (bitCycles n s).shift.length = s.shift.length := by
  induction n with
  | zero => rfl
  | succ n ih => rw [bitCycles_succ, bitCycle]; simp [ih]

theorem bitCycles_lane (n : Nat) (s : State) (l : Nat) (hl : l < s.shift.length) :
    (bitCycles n s).lane l = (List.range n).foldl (fun f k => shiftIn f ((s.comingSample k).getLsbD l)) (s.lane l) := by
  induction n with
  | zero => rfl
  | succ n ih =>
    rw [bitCycles_succ, List.range_succ, List.foldl_append, List.foldl_cons, List.foldl_nil, ← ih]
    have hl' : l < ((bitCycles n s).driveSck true).shift.length := by
      simpa [bitCycles_shift_length] using hl
    have := takeSample_lane _ l hl'
    have hc : ((bitCycles n s).driveSck true).comingSample 0 = s.comingSample n := by
      exact bitCycles_comingSample n s 0
    rw [hc] at this
    exact this

/-- A capture fills every register with the frame its line delivered, whatever it held (R21, R111). -/
theorem capture32_lane (s : State) (l : Nat) (hl : l < s.shift.length) :
    (capture32 s).lane l = s.captureFrame 0 l := by
  rw [capture32, bitCycles_lane _ _ _ hl, foldl_shiftIn_32, State.captureFrame]
  simp

end Sys2Proof.Machine
end

