-- ==== Sys2Proof/Laws/Sequencer.lean ====
section
/-! SUPPORT. The sequencer of R119, row by row, and what runs of its ticks make: a bit cycle, a capture, an
address, the body of a sweep; and that what is outside the block moves on beside it. -/

namespace Sys2Proof.Machine

/-! ### The rows of R119 -/

theorem seqTick_setup {s : State} (h : s.phase = .setup) : seqTick s = seqSetup s := by simp only [seqTick, h]
theorem seqTick_rise {s : State} (h : s.phase = .rise) : seqTick s = seqRise s := by simp only [seqTick, h]
theorem seqTick_sample {s : State} (h : s.phase = .sample) : seqTick s = seqSample s := by simp only [seqTick, h]
theorem seqTick_low2 {s : State} (h : s.phase = .low2) : seqTick s = seqLow2 s := by simp only [seqTick, h]
theorem seqTick_low3 {s : State} (h : s.phase = .low3) : seqTick s = seqLow3 s := by simp only [seqTick, h]
theorem seqTick_commit {s : State} (h : s.phase = .commit) : seqTick s = seqCommit s := by simp only [seqTick, h]
theorem seqTick_finish {s : State} (h : s.phase = .finish) : seqTick s = finishSweep s := by simp only [seqTick, h]
theorem seqTick_idle {s : State} (h : s.phase = .idle) : seqTick s = s := by simp only [seqTick, h]

/-! ### What is outside the block moves on beside the sequencer -/

/-- `s` with other host turns, response port and tick count: what a tick changes outside the sequencer's own action. -/
def State.outside (s : State) (h : List HostTurn) (r : Option Response) (n : Nat) : State :=
  { s with host := h, resp := r, tickNo := n }

theorem beginBusyTick_eq (s : State) : s.beginBusyTick = s.outside (busyTurns s.host) none (s.tickNo + 1) := rfl

theorem updateLine_outside (a : Nat) (ow : Bool) (s : State) (h : List HostTurn) (r : Option Response) (n l : Nat) :
    updateLine a ow (s.outside h r n) l = (updateLine a ow s l).outside h r n := by
  simp only [updateLine, update_eq]; rfl

theorem updateLines_outside (a : Nat) (ow : Bool) (s : State) (h : List HostTurn) (r : Option Response) (n : Nat) :
    updateLines a ow (s.outside h r n) = (updateLines a ow s).outside h r n := by
  unfold updateLines
  show List.foldl _ _ (List.range s.cfg.nLines) = _
  generalize List.range s.cfg.nLines = ls
  induction ls generalizing s with
  | nil => rfl
  | cons l ls ih => rw [List.foldl_cons, updateLine_outside, ih, List.foldl_cons]

/-- But for FINISH, which answers, the sequencer's action does not look at or touch what is outside. -/
theorem seqTick_outside {s : State} (hf : s.phase ≠ .finish) (h : List HostTurn) (r : Option Response) (n : Nat) :
    seqTick (s.outside h r n) = (seqTick s).outside h r n := by
  cases hp : s.phase with
  | idle => rw [seqTick_idle hp, seqTick_idle (s := s.outside h r n) hp]
  | setup =>
    rw [seqTick_setup hp, seqTick_setup (s := s.outside h r n) hp]
    cases hm : s.cfg.topology <;>
      simp only [seqSetup, hm, show (s.outside h r n).cfg.topology = _ from hm] <;> rfl
  | rise => rw [seqTick_rise hp, seqTick_rise (s := s.outside h r n) hp]; rfl
  | sample => rw [seqTick_sample hp, seqTick_sample (s := s.outside h r n) hp]; rfl
  | low2 => rw [seqTick_low2 hp, seqTick_low2 (s := s.outside h r n) hp]; rfl
  | low3 => rw [seqTick_low3 hp, seqTick_low3 (s := s.outside h r n) hp]; rfl
  | commit =>
    rw [seqTick_commit hp, seqTick_commit (s := s.outside h r n) hp]
    cases hm : s.cfg.topology with
    | addressMultiplexed =>
      have hu := updateLines_outside s.acnt.toNat s.ow s h r n
      simp only [seqCommit, hm, show (s.outside h r n).acnt = s.acnt from rfl, show (s.outside h r n).ow = s.ow from rfl,
        show (s.outside h r n).cfg = s.cfg from rfl, hu]
      split <;> rfl
    | chipSelectPerChannel =>
      have hu := updateLines_outside 0 s.ow (s.driveCsN true) h r n
      simp only [seqCommit, hm, show (s.outside h r n).cfg.topology = _ from hm,
        show (s.outside h r n).ow = s.ow from rfl,
        show (s.outside h r n).driveCsN true = (s.driveCsN true).outside h r n from rfl, hu]
      rfl
  | finish => exact absurd hp hf

/-- `n` sequencer steps. -/
def seqTicks : Nat → State → State
  | 0, s => s
  | n + 1, s => seqTicks n (seqTick s)

theorem seqTicks_add (m n : Nat) (s : State) : seqTicks (m + n) s = seqTicks n (seqTicks m s) := by
  induction m generalizing s with
  | zero => simp [seqTicks]
  | succ m ih => rw [Nat.succ_add, seqTicks, ih, seqTicks]

/-- The first and the last of `n + 2` steps. -/
theorem seqTicks_ends (n : Nat) (s : State) : seqTicks (n + 2) s = seqTick (seqTicks n (seqTick s)) := by
  rw [show n + 2 = 1 + (n + 1) from by omega, seqTicks_add, seqTicks_add]; rfl

theorem seqTicks_outside (n : Nat) {s : State} (hf : ∀ j < n, (seqTicks j s).phase ≠ .finish) (h : List HostTurn)
    (r : Option Response) (k : Nat) : seqTicks n (s.outside h r k) = (seqTicks n s).outside h r k := by
  induction n generalizing s with
  | zero => rfl
  | succ n ih =>
    rw [seqTicks, seqTick_outside (s := s) (hf 0 (by omega)), ih, seqTicks]
    intro j hj
    exact hf (j + 1) (by omega)

/-- The sequencer is running and the next tick is not the last one. -/
def Phase.inside (p : Phase) : Prop := p ≠ .idle ∧ p ≠ .finish

theorem busyTick_of_no_reset {s : State} (h : s.turn.asserts = false) : busyTick s = seqTick s.beginBusyTick := by
  simp [busyTick, h]

/-- The response port after `n` busy ticks that do not answer. -/
def portAfter : Nat → Option Response → Option Response
  | 0, r => r
  | _ + 1, _ => none

/-- Running the block through `k` ticks inside a sweep, with no reset, is `k` sequencer steps, the outside moving on. -/
theorem runBusy_add (k m : Nat) {s : State} (hin : ∀ j < k, (seqTicks j s).phase.inside)
    (hr : noResetWithin k s.host = true) :
    runBusy (k + m) s =
      runBusy m ((seqTicks k s).outside (busyTurnsAfter k s.host) (portAfter k s.resp) (s.tickNo + k)) := by
  induction k generalizing s with
  | zero => rw [Nat.zero_add]; rfl
  | succ k ih =>
    have hi : s.phase ≠ .idle := (hin 0 (by omega)).1
    have hf : s.phase ≠ .finish := (hin 0 (by omega)).2
    simp only [noResetWithin, Bool.and_eq_true, Bool.not_eq_true'] at hr
    have hb : s.busy = true := by simpa [State.busy] using hi
    have hstep : busyTick s = (seqTick s).outside (busyTurns s.host) none (s.tickNo + 1) := by
      rw [busyTick_of_no_reset hr.1, beginBusyTick_eq, seqTick_outside hf]
    have hin' : ∀ j < k, (seqTicks j (seqTick s)).phase.inside := fun j hj => hin (j + 1) (by omega)
    have hfin : ∀ j < k, (seqTicks j (seqTick s)).phase ≠ .finish := fun j hj => (hin' j hj).2
    have hout : ∀ j ≤ k, seqTicks j ((seqTick s).outside (busyTurns s.host) none (s.tickNo + 1)) =
        (seqTicks j (seqTick s)).outside (busyTurns s.host) none (s.tickNo + 1) :=
      fun j hj => seqTicks_outside j (fun i hi => hfin i (by omega)) _ _ _
    rw [Nat.succ_add, runBusy, if_pos hb, hstep, ih _ hr.2, hout k le_rfl]
    · have hn : s.tickNo + 1 + k = s.tickNo + (k + 1) := by omega
      have hq : portAfter k none = none := by cases k <;> rfl
      have hq' : portAfter (k + 1) s.resp = none := rfl
      simp only [State.outside, busyTurnsAfter, seqTicks, hn, hq, hq']
    · intro j hj
      rw [hout j (by omega)]
      exact hin' j hj

/-! ### A capture, tick by tick -/

/-- Four ticks from RISE are one bit cycle (R119 against R111). -/
theorem seqTicks_bit {s : State} (hp : s.phase = .rise) (hb : s.bcnt.toNat < 32) :
    seqTicks 4 s = { bitCycle s with
        bcnt := s.bcnt + 1#6
        phase := if s.bcnt.toNat + 1 < 32 then .rise else .commit } ∧
      ∀ j < 4, (seqTicks j s).phase.inside := by
  have h1 : seqTick s = seqRise s := seqTick_rise hp
  have h2 : seqTick (seqRise s) = seqSample (seqRise s) := seqTick_sample rfl
  have h3 : seqTick (seqSample (seqRise s)) = seqLow2 (seqSample (seqRise s)) := seqTick_low2 rfl
  have h4 : seqTick (seqLow2 (seqSample (seqRise s))) = seqLow3 (seqLow2 (seqSample (seqRise s))) :=
    seqTick_low3 rfl
  have hbc : (s.bcnt + 1#6).toNat = s.bcnt.toNat + 1 := by
    rw [BitVec.toNat_add]; simp; omega
  constructor
  · simp only [seqTicks, h1, h2, h3, h4]
    have hl3 : seqLow3 (seqLow2 (seqSample (seqRise s))) =
        { bitCycle s with
          bcnt := s.bcnt + 1#6
          phase := if (s.bcnt + 1#6).toNat < 32 then .rise else .commit } := by
      simp [seqLow3, seqLow2, seqSample, seqRise, bitCycle, State.driveSck, State.takeSample]
      rfl
    rw [hl3, hbc]
  · intro j hj
    have : j = 0 ∨ j = 1 ∨ j = 2 ∨ j = 3 := by omega
    rcases this with rfl | rfl | rfl | rfl
    · simp [seqTicks, Phase.inside, hp]
    · simp [seqTicks, Phase.inside, h1, seqRise]
    · simp [seqTicks, Phase.inside, h1, h2, seqSample]
    · simp [seqTicks, Phase.inside, h1, h2, h3, seqLow2]

/-- `4 * n` ticks from RISE with `BCNT = 0` are `n` bit cycles. -/
theorem seqTicks_bits (n : Nat) (hn : n ≤ 32) {s : State} (hp : s.phase = .rise) (hb : s.bcnt = 0#6) :
    seqTicks (4 * n) s = { bitCycles n s with
        bcnt := BitVec.ofNat 6 n
        phase := if n < 32 then .rise else .commit } ∧
      ∀ j < 4 * n, (seqTicks j s).phase.inside := by
  induction n with
  | zero => refine ⟨?_, by simp⟩; cases s; simp_all [seqTicks, bitCycles]
  | succ n ih =>
    obtain ⟨h, hin⟩ := ih (by omega)
    rw [if_pos (by omega)] at h
    have hb' : (seqTicks (4 * n) s).bcnt.toNat = n := by rw [h]; simp; omega
    obtain ⟨h4, hin4⟩ := seqTicks_bit (s := seqTicks (4 * n) s) (by rw [h]) (by omega)
    constructor
    · rw [Nat.mul_succ, seqTicks_add, h4, hb']
      rw [h, bitCycles_succ]
      have : BitVec.ofNat 6 n + 1#6 = BitVec.ofNat 6 (n + 1) := by simp [BitVec.ofNat_add]
      simp only [this]
      rfl
    · intro j hj
      by_cases hj' : j < 4 * n
      · exact hin j hj'
      · obtain ⟨i, rfl⟩ := Nat.exists_eq_add_of_le (Nat.le_of_not_lt hj')
        rw [seqTicks_add]
        exact hin4 i (by omega)

/-- `s` with the sequencer's registers at these values. -/
def State.atSeq (s : State) (q : Phase) (x : BitVec 4) (b : BitVec 6) : State :=
  { s with phase := q, acnt := x, bcnt := b }

@[simp] theorem State.atSeq_atSeq (s : State) (q q' : Phase) (x x' : BitVec 4) (b b' : BitVec 6) :
    (s.atSeq q x b).atSeq q' x' b' = s.atSeq q' x' b' := rfl
@[simp] theorem State.atSeq_phase (s : State) (q : Phase) (x : BitVec 4) (b : BitVec 6) :
    (s.atSeq q x b).phase = q := rfl
@[simp] theorem State.atSeq_acnt (s : State) (q : Phase) (x : BitVec 4) (b : BitVec 6) :
    (s.atSeq q x b).acnt = x := rfl
@[simp] theorem State.atSeq_bcnt (s : State) (q : Phase) (x : BitVec 4) (b : BitVec 6) :
    (s.atSeq q x b).bcnt = b := rfl
@[simp] theorem State.atSeq_cfg (s : State) (q : Phase) (x : BitVec 4) (b : BitVec 6) :
    (s.atSeq q x b).cfg = s.cfg := rfl
@[simp] theorem State.atSeq_ow (s : State) (q : Phase) (x : BitVec 4) (b : BitVec 6) :
    (s.atSeq q x b).ow = s.ow := rfl
theorem State.atSeq_driveCsN (s : State) (c : Bool) (q : Phase) (x : BitVec 4) (b : BitVec 6) :
    (s.atSeq q x b).driveCsN c = (s.driveCsN c).atSeq q x b := rfl
theorem State.phase_of_atSeq (s : State) (q q' : Phase) (x x' : BitVec 4) (b : BitVec 6) :
    ({ s.atSeq q x b with acnt := x', phase := q' } : State) = s.atSeq q' x' b := rfl
theorem State.end_of_atSeq (s : State) (q q' : Phase) (x : BitVec 4) (b : BitVec 6) :
    ({ s.atSeq q x b with phase := q' } : State) = s.atSeq q' x b := rfl

theorem bitCycles_atSeq (n : Nat) (s : State) (q : Phase) (x : BitVec 4) (b : BitVec 6) :
    bitCycles n (s.atSeq q x b) = (bitCycles n s).atSeq q x b := by
  induction n with
  | zero => rfl
  | succ n ih => rw [bitCycles_succ, ih, bitCycles_succ]; rfl

theorem bitCycles_frame (n : Nat) (s : State) :
    (bitCycles n s).cfg = s.cfg ∧ (bitCycles n s).ow = s.ow ∧ (bitCycles n s).acnt = s.acnt ∧
    (bitCycles n s).phase = s.phase ∧ (bitCycles n s).bcnt = s.bcnt ∧ (bitCycles n s).tc = s.tc ∧
    (bitCycles n s).cj = s.cj ∧ (bitCycles n s).a = s.a ∧ (bitCycles n s).csN = s.csN ∧
    (bitCycles n s).validCount = s.validCount ∧ (bitCycles n s).responses = s.responses ∧
    (bitCycles n s).resp = s.resp ∧ (bitCycles n s).host = s.host ∧ (bitCycles n s).tickNo = s.tickNo ∧
    (bitCycles n s).lines = s.lines.drop n ∧ (bitCycles n s).sampleNo = s.sampleNo + n := by
  induction n with
  | zero => simp [bitCycles]
  | succ n ih =>
    obtain ⟨h1, h2, h3, h4, h5, h6, h7, h8, h9, h10, h11, h12, h13, h14, h15, h16⟩ := ih
    rw [bitCycles_succ]
    simp [bitCycle, h1, h2, h3, h4, h5, h6, h7, h8, h9, h10, h11, h12, h13, h14, h15, h16, Nat.add_assoc]

/-- The sequencer's registers play no part in the UPDATEs of a line. -/
theorem foldl_updateLine_atSeq (a : Nat) (ow : Bool) (ls : List Nat) (s : State) (q : Phase) (x : BitVec 4)
    (b : BitVec 6) :
    ls.foldl (updateLine a ow) (s.atSeq q x b) = (ls.foldl (updateLine a ow) s).atSeq q x b := by
  induction ls generalizing s with
  | nil => rfl
  | cons l ls ih =>
    have : updateLine a ow (s.atSeq q x b) l = (updateLine a ow s l).atSeq q x b := by
      simp only [updateLine, update_eq]; rfl
    rw [List.foldl_cons, this, ih, List.foldl_cons]

theorem updateLines_atSeq (a : Nat) (ow : Bool) (s : State) (q : Phase) (x : BitVec 4) (b : BitVec 6) :
    updateLines a ow (s.atSeq q x b) = (updateLines a ow s).atSeq q x b :=
  foldl_updateLine_atSeq a ow _ s q x b


theorem capture32_atSeq (s : State) (q : Phase) (x : BitVec 4) (b : BitVec 6) :
    capture32 (s.atSeq q x b) = (capture32 s).atSeq q x b := bitCycles_atSeq 32 s q x b

/-- The 128 ticks from RISE to COMMIT are CAPTURE32. -/
theorem seqTicks_capture {s : State} (hp : s.phase = .rise) (hb : s.bcnt = 0#6) :
    seqTicks 128 s = (capture32 s).atSeq .commit s.acnt 32#6 ∧ ∀ j < 128, (seqTicks j s).phase.inside := by
  obtain ⟨h, hin⟩ := seqTicks_bits 32 le_rfl hp hb
  have hac : (bitCycles 32 s).acnt = s.acnt := (bitCycles_frame 32 s).2.2.1
  rw [if_neg (by omega)] at h
  exact ⟨by rw [capture32, ← hac]; exact h, hin⟩

/-! ### One address of a multiplexed sweep -/

theorem sweepAddress_atSeq (ow : Bool) (s : State) (a : Nat) (q : Phase) (x : BitVec 4) (b : BitVec 6) :
    sweepAddress ow (s.atSeq q x b) a = (sweepAddress ow s a).atSeq q x b := by
  have h1 : addrDrive (BitVec.ofNat 4 a) (s.atSeq q x b) = (addrDrive (BitVec.ofNat 4 a) s).atSeq q x b := rfl
  rw [sweepAddress, sweepAddress, h1, capture32_atSeq, updateLines_atSeq]

theorem foldl_sweepAddress_atSeq (ow : Bool) (ls : List Nat) (s : State) (q : Phase) (x : BitVec 4) (b : BitVec 6) :
    ls.foldl (sweepAddress ow) (s.atSeq q x b) = (ls.foldl (sweepAddress ow) s).atSeq q x b := by
  induction ls generalizing s with
  | nil => rfl
  | cons l ls ih => rw [List.foldl_cons, sweepAddress_atSeq, ih, List.foldl_cons]

theorem sweepAddress_frame (ow : Bool) (s : State) (a : Nat) :
    (sweepAddress ow s a).cfg = s.cfg ∧ (sweepAddress ow s a).ow = s.ow ∧ (sweepAddress ow s a).acnt = s.acnt ∧
    (sweepAddress ow s a).phase = s.phase ∧ (sweepAddress ow s a).bcnt = s.bcnt := by
  have hf := bitCycles_frame 32 (addrDrive (BitVec.ofNat 4 a) s)
  rw [sweepAddress, updateLines_frame]
  refine ⟨hf.1, hf.2.1, hf.2.2.1, hf.2.2.2.1, hf.2.2.2.2.1⟩

/-- The 130 ticks of one address, SETUP to COMMIT, are `sweepAddress`. -/
theorem seqTicks_address {s : State} (hm : s.cfg.topology = .addressMultiplexed) (hp : s.phase = .setup) :
    seqTicks 130 s =
      (sweepAddress s.ow s s.acnt.toNat).atSeq
        (if s.acnt.toNat + 1 < s.cfg.addressCount then .setup else .finish)
        (if s.acnt.toNat + 1 < s.cfg.addressCount then s.acnt + 1#4 else s.acnt) 32#6 ∧
      ∀ j < 130, (seqTicks j s).phase.inside := by
  have h1 : seqTick s = (addrDrive s.acnt s).atSeq .rise s.acnt 0#6 := by
    rw [seqTick_setup hp]; simp only [seqSetup, hm]; rfl
  obtain ⟨h2, hin⟩ := seqTicks_capture (s := seqTick s) (by rw [h1]; rfl) (by rw [h1]; rfl)
  have h2' : seqTicks 128 (seqTick s) = (capture32 (addrDrive s.acnt s)).atSeq .commit s.acnt 32#6 := by
    rw [h2, h1, capture32_atSeq, State.atSeq_atSeq, State.atSeq_acnt]
  have hf := bitCycles_frame 32 (addrDrive s.acnt s)
  have hcfg : (capture32 (addrDrive s.acnt s)).cfg = s.cfg := hf.1
  have how : (capture32 (addrDrive s.acnt s)).ow = s.ow := hf.2.1
  have hac : BitVec.ofNat 4 s.acnt.toNat = s.acnt := by simp
  constructor
  · rw [seqTicks_ends 128 s, h2', seqTick_commit rfl]
    simp only [seqCommit, State.atSeq_cfg, State.atSeq_ow, State.atSeq_acnt, hcfg, how, hm]
    have hu : updateLines s.acnt.toNat s.ow ((capture32 (addrDrive s.acnt s)).atSeq .commit s.acnt 32#6) =
        (sweepAddress s.ow s s.acnt.toNat).atSeq .commit s.acnt 32#6 := by
      rw [updateLines_atSeq, sweepAddress, hac]
    rw [hu]
    split
    · rw [State.phase_of_atSeq]
    · rw [State.end_of_atSeq]
  · intro j hj
    rcases Nat.lt_or_ge j 1 with h | h
    · obtain rfl : j = 0 := by omega
      simp [seqTicks, Phase.inside, hp]
    · obtain ⟨i, rfl⟩ := Nat.exists_eq_add_of_le h
      rw [seqTicks_add]
      show (seqTicks i (seqTick s)).phase.inside
      rcases Nat.lt_or_ge i 128 with h' | h'
      · exact hin i h'
      · obtain rfl : i = 128 := by omega
        rw [h2']; simp [State.atSeq, Phase.inside]

/-! ### A whole sweep -/

/-- From the SETUP of address `a` on: the addresses left, `130` ticks each, ending at FINISH. -/
theorem seqTicks_addresses (ow : Bool) (n a : Nat) {s : State} (hm : s.cfg.topology = .addressMultiplexed)
    (ha : a + (n + 1) = s.cfg.addressCount) (h16 : s.cfg.addressCount ≤ 16) (how : s.ow = ow)
    (hp : s.phase = .setup) (hac : s.acnt.toNat = a) :
    (∃ x, seqTicks (130 * (n + 1)) s =
      ((List.range' a (n + 1)).foldl (sweepAddress ow) s).atSeq .finish x 32#6) ∧
      ∀ j < 130 * (n + 1), (seqTicks j s).phase.inside := by
  induction n generalizing s a with
  | zero =>
    obtain ⟨h, hin⟩ := seqTicks_address hm hp
    rw [if_neg (by omega), if_neg (by omega)] at h
    refine ⟨⟨s.acnt, ?_⟩, hin⟩
    show seqTicks 130 s = _
    rw [h, how, hac]; rfl
  | succ n ih =>
    obtain ⟨h, hin⟩ := seqTicks_address hm hp
    rw [if_pos (by omega), if_pos (by omega), how, hac] at h
    have hfr := sweepAddress_frame ow s a
    have hx : (s.acnt + 1#4).toNat = a + 1 := by rw [BitVec.toNat_add]; simp; omega
    obtain ⟨⟨x, h'⟩, hin'⟩ := ih (a + 1) (s := seqTicks 130 s) (by rw [h]; exact hfr.1 ▸ hm)
      (by rw [h]; show _ = (sweepAddress ow s a).cfg.addressCount; rw [hfr.1]; omega)
      (by rw [h]; show (sweepAddress ow s a).cfg.addressCount ≤ 16; rw [hfr.1]; exact h16)
      (by rw [h]; exact hfr.2.1.trans how) (by rw [h]; rfl) (by rw [h]; exact hx)
    constructor
    · refine ⟨x, ?_⟩
      rw [show 130 * (n + 1 + 1) = 130 + 130 * (n + 1) from by omega, seqTicks_add, h', h]
      rw [List.range'_succ (n := n + 1), List.foldl_cons]
      rw [foldl_sweepAddress_atSeq]; rfl
    · intro j hj
      by_cases hj' : j < 130
      · exact hin j hj'
      · obtain ⟨i, rfl⟩ := Nat.exists_eq_add_of_le (Nat.le_of_not_lt hj')
        rw [seqTicks_add]
        exact hin' i (by omega)

/-- The state in which the FINISH tick finds the block: R116 or R117 up to the count. -/
def sweepBody (ow : Bool) (s : State) : State :=
  let t := { s with ow := ow }
  match s.cfg.topology with
  | .addressMultiplexed => (List.range s.cfg.addressCount).foldl (sweepAddress ow) t
  | .chipSelectPerChannel => updateLines 0 ow ((capture32 (t.driveCsN false)).driveCsN true)

theorem sweepOp_eq (ow : Bool) (s : State) : sweepOp ow s = finishSweep (sweepBody ow s) := by
  unfold sweepOp sweepBody; cases s.cfg.topology <;> rfl

/-- From acceptance to the FINISH tick: `130 * captures` sequencer steps make the body of the sweep. -/
theorem seqTicks_sweep (ow : Bool) {s : State} (hl : s.cfg.legal = true) :
    (∃ x, seqTicks (130 * s.cfg.captures) (acceptSweep ow s) = (sweepBody ow s).atSeq .finish x 32#6) ∧
      ∀ j < 130 * s.cfg.captures, (seqTicks j (acceptSweep ow s)).phase.inside := by
  cases hm : s.cfg.topology with
  | addressMultiplexed =>
    have hc : s.cfg.captures = s.cfg.addressCount := by simp [Config.captures, hm]
    have hleg : 1 ≤ s.cfg.addressCount ∧ s.cfg.addressCount ≤ 16 := by
      simp [Config.legal, Config.legalCounts, hm] at hl; omega
    obtain ⟨n, hn⟩ := Nat.exists_eq_add_of_le' hleg.1
    obtain ⟨⟨x, h⟩, hin⟩ := seqTicks_addresses ow n 0 (s := acceptSweep ow s) hm (by rw [Nat.zero_add]; exact hn.symm)
      hleg.2 rfl rfl rfl
    rw [hc, hn]
    refine ⟨⟨x, ?_⟩, hin⟩
    rw [h, ← List.range_eq_range', ← hn]
    have : acceptSweep ow s = ({ s with ow := ow } : State).atSeq .setup 0#4 0#6 := rfl
    rw [this, foldl_sweepAddress_atSeq, sweepBody]
    simp only [hm]; rfl
  | chipSelectPerChannel =>
    have hc : s.cfg.captures = 1 := by simp [Config.captures, hm]
    rw [hc]
    let t : State := { s with ow := ow }
    have h1 : seqTick (acceptSweep ow s) = (t.driveCsN false).atSeq .rise 0#4 0#6 := by
      rw [seqTick_setup rfl]
      simp only [seqSetup, show (acceptSweep ow s).cfg.topology = _ from hm]; rfl
    obtain ⟨h2, hin⟩ := seqTicks_capture (s := seqTick (acceptSweep ow s)) (by rw [h1]; rfl) (by rw [h1]; rfl)
    have h2' : seqTicks 128 (seqTick (acceptSweep ow s)) =
        (capture32 (t.driveCsN false)).atSeq .commit 0#4 32#6 := by
      rw [h2, h1, capture32_atSeq, State.atSeq_atSeq, State.atSeq_acnt]
    have hf := bitCycles_frame 32 (t.driveCsN false)
    have hcfg : (capture32 (t.driveCsN false)).cfg = s.cfg := hf.1
    have how : (capture32 (t.driveCsN false)).ow = ow := hf.2.1
    constructor
    · refine ⟨0#4, ?_⟩
      rw [seqTicks_ends 128, h2', seqTick_commit rfl]
      simp only [seqCommit, State.atSeq_cfg, State.atSeq_ow, hcfg, how, hm, sweepBody]
      rw [State.atSeq_driveCsN, updateLines_atSeq, State.end_of_atSeq]
    · intro j hj
      rcases Nat.lt_or_ge j 1 with h | h
      · obtain rfl : j = 0 := by omega
        simp [seqTicks, Phase.inside, acceptSweep]
      · obtain ⟨i, rfl⟩ := Nat.exists_eq_add_of_le h
        rw [seqTicks_add]
        show (seqTicks i (seqTick (acceptSweep ow s))).phase.inside
        rcases Nat.lt_or_ge i 128 with h' | h'
        · exact hin i h'
        · obtain rfl : i = 128 := by omega
          rw [h2']; simp [State.atSeq, Phase.inside]

end Sys2Proof.Machine
end

