-- ==== Sys2Proof/Laws/Run.lean ====
section
/-! SUPPORT. Running a busy block: resets to come, the last tick of a sweep. -/

namespace Sys2Proof.Machine

theorem noResetWithin_succ (k : Nat) (ts : List HostTurn) :
    noResetWithin (k + 1) ts = true ↔
      noResetWithin k ts = true ∧ ((busyTurnsAfter k ts).headD .quiet).asserts = false := by
  induction k generalizing ts with
  | zero => simp [noResetWithin, busyTurnsAfter]
  | succ k ih =>
    rw [noResetWithin, Bool.and_eq_true, ih, noResetWithin, Bool.and_eq_true, busyTurnsAfter, and_assoc]

theorem noResetWithin_mono {j k : Nat} (h : j ≤ k) {ts : List HostTurn} (hk : noResetWithin k ts = true) :
    noResetWithin j ts = true := by
  induction k with
  | zero => obtain rfl : j = 0 := by omega
            exact hk
  | succ k ih =>
    rcases Nat.lt_or_ge j (k + 1) with hj | hj
    · exact ih (by omega) ((noResetWithin_succ k ts).1 hk).1
    · obtain rfl : j = k + 1 := by omega
      exact hk

theorem busyTurnsAfter_succ (k : Nat) (ts : List HostTurn) :
    busyTurnsAfter (k + 1) ts = busyTurns (busyTurnsAfter k ts) := by
  induction k generalizing ts with
  | zero => rfl
  | succ k ih => rw [busyTurnsAfter, ih, busyTurnsAfter]

theorem finishSweep_outside (s : State) (q : Phase) (x : BitVec 4) (b : BitVec 6) (h : List HostTurn)
    (r : Option Response) (n : Nat) :
    finishSweep ((s.atSeq q x b).outside h r n) = { finishSweep s with host := h, tickNo := n } := rfl

theorem runBusy_idle {s : State} (h : s.phase = .idle) (n : Nat) : runBusy n s = s := by
  cases n with
  | zero => rfl
  | succ n => simp [runBusy, State.busy, h]

theorem runBusy_succ {s : State} (h : s.phase ≠ .idle) (n : Nat) : runBusy (n + 1) s = runBusy n (busyTick s) := by
  simp [runBusy, State.busy, h]

/-- The last tick of a sweep. -/
theorem busyTick_finish (s : State) (x : BitVec 4) (b : BitVec 6) (h : List HostTurn) (r : Option Response) (n : Nat)
    (hr : (h.headD .quiet).asserts = false) :
    busyTick ((s.atSeq .finish x b).outside h r n) = { finishSweep s with host := busyTurns h, tickNo := n + 1 } := by
  have ht : ((s.atSeq .finish x b).outside h r n).turn.asserts = false := hr
  rw [busyTick_of_no_reset ht, seqTick_finish rfl]
  exact finishSweep_outside s .finish x b (busyTurns h) none (n + 1)

end Sys2Proof.Machine
end

