-- ==== Sys2Proof/Laws/Legal.lean ====
section
/-! SUPPORT. What legality gives: bounds of the derived parameters, and that a capture's UPDATEs stay inside the store. -/

namespace Sys2Proof.Machine

/-- What legality says of the derived parameters (R5). -/
theorem legal_bounds {c : Config} (h : c.legal = true) :
    1 ≤ c.nLines ∧ c.nLines ≤ 16 ∧ 1 ≤ c.captures ∧ c.captures ≤ 16 ∧ c.nHubs ≤ 16 ∧ 1 ≤ c.nHubs ∧ 1 ≤ c.nCh ∧
      c.nCh ≤ 16 ∧ c.nHubs * c.nCh ≤ 160 := by
  cases hm : c.topology with
  | addressMultiplexed =>
    simp [Config.legal, Config.legalCounts, hm] at h
    obtain ⟨⟨⟨⟨⟨h1, h2⟩, h3⟩, h4⟩, _⟩, _⟩ := h
    simp only [Config.nLines, Config.captures, Config.nHubs, Config.nCh, hm]
    refine ⟨h1, by omega, h3, h4, by omega, h1, h3, h4, ?_⟩
    exact (Nat.mul_le_mul h2 h4)
  | chipSelectPerChannel =>
    simp [Config.nLines, Config.captures, Config.nHubs, Config.nCh, hm]

/-- The entry of a line of the instance is a store address of the instance. -/
theorem entry_inRange {c : Config} (h : c.legal = true) {a l : Nat} (ha : a < c.captures) (hl : l < c.nLines) :
    entryAddr (entryOfLine c a l).1 (entryOfLine c a l).2 / 16 < c.nHubs ∧
      entryAddr (entryOfLine c a l).1 (entryOfLine c a l).2 % 16 < c.nCh := by
  have hb := legal_bounds h
  cases hm : c.topology <;>
    simp only [Config.nLines, Config.captures, Config.nHubs, Config.nCh, hm, entryOfLine, entryAddr] at * <;> omega

/-- The UPDATEs of a capture keep the store's canonical form and list decoded Readings only. -/
theorem updateLines_storeInv {s : State} (hl : s.cfg.legal = true) {a : Nat} (ha : a < s.cfg.captures) (ow : Bool)
    (hs : s.StoreInv) (hr : s.ReadingsInv) : (updateLines a ow s).StoreInv ∧ (updateLines a ow s).ReadingsInv := by
  obtain ⟨h1, h2, h3, h4⟩ := hs
  obtain ⟨w1, w2⟩ := updateLines_wf a ow h1 h2
  obtain ⟨m1, m2⟩ := foldl_updateLine_mem a ow (List.range s.cfg.nLines) (s := s)
  have hcfg : (updateLines a ow s).cfg = s.cfg := by rw [updateLines_frame]
  unfold State.StoreInv State.ReadingsInv
  rw [hcfg]
  refine ⟨⟨w1, w2, ?_, ?_⟩, ?_, ?_⟩
  · intro e he
    rcases m1 e he with h | ⟨l, hl', rfl⟩
    · exact h3 e h
    · exact entry_inRange hl ha (List.mem_range.1 hl')
  · intro e he
    rcases m2 e he with h | ⟨l, hl', rfl⟩
    · exact h4 e h
    · exact entry_inRange hl ha (List.mem_range.1 hl')
  · intro e he
    rcases m1 e he with h | ⟨l, hl', rfl⟩
    · exact hr.1 e h
    · exact ⟨_, rfl⟩
  · intro e he
    rcases m2 e he with h | ⟨l, hl', rfl⟩
    · exact hr.2 e h
    · exact ⟨_, rfl⟩

/-- The count never exceeds the number of entries (R118). -/
theorem countValid_le (s : State) : s.countValid ≤ s.cfg.nHubs * s.cfg.nCh := by
  refine List.countP_le_length.trans ?_
  simp [Config.entries]

end Sys2Proof.Machine
end

