-- ==== Sys2Proof/Laws/Edge.lean ====
section
/-! SUPPORT. What one clock edge can do (Sys2Proof/Machine/Edge.lean), for `step` and `tick` alike, and what the read
commands' shared answers are (Sys2Proof/Machine/Operands.lean). -/

namespace Sys2Proof.Machine

theorem edge_of_illegal {run : Instr → State → Host.Outcome State Fault Refusal} {s : State}
    (hl : s.cfg.legal = false) : edge run s = .refused .illegalInstance := by
  simp [edge, hl]

theorem edge_of_reset {run : Instr → State → Host.Outcome State Fault Refusal} {s : State}
    (hl : s.cfg.legal = true) (ha : s.turn.asserts = true) : edge run s = .next (resetTick s) := by
  simp [edge, hl, ha]

theorem edge_of_busy {run : Instr → State → Host.Outcome State Fault Refusal} {s : State}
    (hl : s.cfg.legal = true) (ha : s.turn.asserts = false) (hp : s.phase ≠ .idle) :
    edge run s = .next (seqTick s.beginBusyTick) := by
  simp [edge, hl, ha, State.busy, hp, busyTick]

theorem edge_of_idle {run : Instr → State → Host.Outcome State Fault Refusal} {s : State}
    (hl : s.cfg.legal = true) (ha : s.turn.asserts = false) (hp : s.phase = .idle) :
    edge run s = acceptCommand run s := by
  simp [edge, hl, ha, State.busy, hp]

theorem acceptCommand_of_quiet {run : Instr → State → Host.Outcome State Fault Refusal} {s : State}
    (hc : s.turn.command = none) : acceptCommand run s = .next s.beginTick := by
  simp [acceptCommand, hc]

theorem acceptCommand_of_ok {run : Instr → State → Host.Outcome State Fault Refusal} {s : State} {w : Word} {i : Instr}
    (hc : s.turn.command = some w) (hd : decode w = .ok i) : acceptCommand run s = run i s.beginTick := by
  simp [acceptCommand, hc, hd]

theorem acceptCommand_of_reject {run : Instr → State → Host.Outcome State Fault Refusal} {s : State} {w : Word}
    {r : RejectReason} (hc : s.turn.command = some w) (hd : decode w = .reject r) :
    acceptCommand run s = .next s.beginTick.refuse := by
  simp [acceptCommand, hc, hd]

/-- What an edge that answers a next state did: a reset, a sequencer tick, an idle tick, a refused word, or a command. -/
theorem edge_cases {run : Instr → State → Host.Outcome State Fault Refusal} {s t : State} (h : edge run s = .next t) :
    s.cfg.legal = true ∧
      (t = resetTick s ∨
        (s.turn.asserts = false ∧ s.phase ≠ .idle ∧ t = seqTick s.beginBusyTick) ∨
        (s.turn.asserts = false ∧ s.phase = .idle ∧
          (t = s.beginTick ∨ t = s.beginTick.refuse ∨ ∃ i, run i s.beginTick = .next t))) := by
  cases hl : s.cfg.legal with
  | false => rw [edge_of_illegal hl] at h; cases h
  | true =>
    refine ⟨rfl, ?_⟩
    cases ha : s.turn.asserts with
    | true => rw [edge_of_reset hl ha] at h; cases h; exact .inl rfl
    | false =>
      by_cases hp : s.phase = .idle
      · rw [edge_of_idle hl ha hp] at h
        refine .inr (.inr ⟨rfl, hp, ?_⟩)
        cases hc : s.turn.command with
        | none => rw [acceptCommand_of_quiet hc] at h; cases h; exact .inl rfl
        | some w =>
          cases hd : decode w with
          | ok i => rw [acceptCommand_of_ok hc hd] at h; exact .inr (.inr ⟨i, h⟩)
          | reject r => rw [acceptCommand_of_reject hc hd] at h; cases h; exact .inr (.inl rfl)
      · rw [edge_of_busy hl ha hp] at h
        cases h
        exact .inr (.inl ⟨rfl, hp, rfl⟩)

theorem answerEntry_of_has {s : State} {hub ch : Nat} (hh : hub < s.cfg.nHubs) (hc : ch < s.cfg.nCh) (r : Reading) :
    answerEntry hub ch r s = s.respond (.reading r) := by
  simp [answerEntry, State.hasEntry, State.hasHub, hh, hc]

theorem answerEntry_of_lacks {s : State} {hub ch : Nat} (h : s.cfg.nHubs ≤ hub ∨ s.cfg.nCh ≤ ch) (r : Reading) :
    answerEntry hub ch r s = s.respond .refused := by
  have : s.hasEntry hub ch = false := by
    simp only [State.hasEntry, State.hasHub, Bool.and_eq_false_iff, decide_eq_false_iff_not]; omega
  simp [answerEntry, this, State.refuse]

theorem answerHub_of_has {s : State} {hub : Nat} (hh : hub < s.cfg.nHubs) (r : Reading) :
    answerHub hub r s = s.respond (.reading r) := by
  simp [answerHub, State.hasHub, hh]

theorem answerHub_of_lacks {s : State} {hub : Nat} (h : s.cfg.nHubs ≤ hub) (r : Reading) :
    answerHub hub r s = s.respond .refused := by
  have : s.hasHub hub = false := by simp only [State.hasHub, decide_eq_false_iff_not]; omega
  simp [answerHub, this, State.refuse]

end Sys2Proof.Machine
end

