-- ==== Sys2Proof/Laws/Format.lean ====
section
/-! SUPPORT. Which Readings have a number among those `READING_FMT` must represent exactly, and that the numbers differ
(spec/30_encoding.md R78). -/

namespace Sys2Proof.Laws

/-- The `n`-th sixteenth in the decoders' range has a number, counted from -2048. -/
theorem exactIndex_of_sixteenth (c : Config) {n : Int} (h₁ : -32768 ≤ n) (h₂ : n ≤ 32764) :
    c.exactIndex ((n : Reading) / 16) = some (n + 32768).toNat := by
  have hn : (16 * ((n : Reading) / 16)) = n := by ring
  have hm : maxDecodable = (32764 : Reading) / 16 := by decide +kernel
  have hlo : (-2048 : Reading) ≤ (n : Reading) / 16 := by
    rw [le_div_iff₀ (by norm_num)]; exact_mod_cast (by omega : -2048 * 16 ≤ n)
  have hhi : (n : Reading) / 16 ≤ maxDecodable := by
    rw [hm]; gcongr; exact_mod_cast h₂
  rw [Config.exactIndex, if_pos ⟨by rw [hn]; rfl, hlo, hhi⟩, hn]
  rfl

/-- Every sentinel has a number. -/
theorem exactIndex_of_sentinel {c : Config} {r : Reading} (h : r ∈ c.sentinels) : ∃ k, c.exactIndex r = some k := by
  unfold Config.exactIndex
  split
  · exact ⟨_, rfl⟩
  · obtain ⟨i, hi⟩ : ∃ i, (c.sentinels.findIdx? fun x => decide (x = r)) = some i := by
      rw [← Option.isSome_iff_exists, List.findIdx?_isSome]
      simpa using h
    exact ⟨_, by rw [hi]; rfl⟩

/-- A number belongs to one Reading. -/
theorem exactIndex_inj {c : Config} {r q : Reading} {k : Nat} (hr : c.exactIndex r = some k)
    (hq : c.exactIndex q = some k) : r = q := by
  have whole : ∀ {x : Reading}, (16 * x).den = 1 → ((16 * x).num : Reading) = 16 * x := fun h => by
    simpa using Rat.coe_int_num_of_den_eq_one h
  have low : ∀ {x : Reading}, (16 * x).den = 1 → -2048 ≤ x → x ≤ maxDecodable →
      0 ≤ (16 * x).num + 32768 ∧ (16 * x).num + 32768 < 65533 := by
    intro x hd h₁ h₂
    have hm : maxDecodable = (32764 : Reading) / 16 := by decide +kernel
    rw [hm] at h₂
    have h := whole hd
    have a : (-32768 : Reading) ≤ (16 * x).num := by rw [h]; linarith
    have b : ((16 * x).num : Reading) ≤ 32764 := by rw [h]; linarith
    constructor
    · have : (-32768 : Int) ≤ (16 * x).num := by exact_mod_cast a
      omega
    · have : (16 * x).num ≤ (32764 : Int) := by exact_mod_cast b
      omega
  unfold Config.exactIndex at hr hq
  split at hr <;> rename_i cr <;> split at hq <;> rename_i cq
  · have e : (16 * r).num = (16 * q).num := by
      have := low cr.1 cr.2.1 cr.2.2
      have := low cq.1 cq.2.1 cq.2.2
      simp only [Option.some.injEq] at hr hq
      omega
    have : 16 * r = 16 * q := by rw [← whole cr.1, ← whole cq.1, e]
    linarith
  · have := low cr.1 cr.2.1 cr.2.2
    obtain ⟨i, -, hi⟩ := Option.map_eq_some_iff.mp hq
    simp only [Option.some.injEq] at hr
    omega
  · have := low cq.1 cq.2.1 cq.2.2
    obtain ⟨i, -, hi⟩ := Option.map_eq_some_iff.mp hr
    simp only [Option.some.injEq] at hq
    omega
  · obtain ⟨i, fi, hi⟩ := Option.map_eq_some_iff.mp hr
    obtain ⟨j, fj, hj⟩ := Option.map_eq_some_iff.mp hq
    obtain rfl : i = j := by omega
    obtain ⟨_, ei, -⟩ := List.findIdx?_eq_some_iff_getElem.mp fi
    obtain ⟨_, ej, -⟩ := List.findIdx?_eq_some_iff_getElem.mp fj
    simp only [decide_eq_true_eq] at ei ej
    exact ei.symm.trans ej

/-- What the format must represent has a free code of its own; the rest is free. -/
theorem readingFmt_of_exact {c : Config} {r : Reading} {k : Nat} (h : c.exactIndex r = some k) :
    c.readingFmt r = Config.freeReadingCode c k := by rw [Config.readingFmt, h]

end Sys2Proof.Laws
end

