-- ==== Sys2Proof/Laws/PerInstr.lean ====
section
/-! SUPPORT. Statements made of every instruction as syntax, one lemma per constructor: its row of the opcode map is in
the table, and its words are words of that row (spec/30_encoding.md R71, R72). -/

namespace Sys2Proof.Laws

/-- The word of `i`, whatever its operands, is one its row of the opcode map covers. -/
def OpcodeRow.Statement (i : Instr) : Prop := i.row ∈ opcodeTable ∧ i.row.covers (encode i) = true

/-- A word with zero in the fields below `op` other than `hub` and `ch` is covered by the rows that use both. -/
theorem packWord_and_F00F (op hub ch : Nat) :
    packWord op hub ch false &&& 0xF00F#16 = BitVec.ofNat 4 op ++ 0#12 := by
  apply BitVec.eq_of_getLsbD_eq
  intro i hi
  simp only [packWord, BitVec.getLsbD_and, BitVec.getLsbD_append]
  interval_cases i <;> simp [BitVec.getLsbD] <;> (intro _; decide)

/-- The same for the rows that use `hub` alone. -/
theorem packWord_and_F0FF (op hub : Nat) :
    packWord op hub 0 false &&& 0xF0FF#16 = BitVec.ofNat 4 op ++ 0#12 := by
  apply BitVec.eq_of_getLsbD_eq
  intro i hi
  simp only [packWord, BitVec.getLsbD_and, BitVec.getLsbD_append]
  interval_cases i <;> simp [BitVec.getLsbD] <;> (intro _; decide)

theorem OpcodeRow.sweep (ow : Bool) : OpcodeRow.Statement (.sweep ow) := by cases ow <;> exact ⟨by decide, by decide⟩
theorem OpcodeRow.rdtcC (hub ch : Nat) : OpcodeRow.Statement (.rdtcC hub ch) :=
  ⟨by simp [Instr.row, opcodeTable], by simp [Sys2Proof.OpcodeRow.covers, Instr.row, encode, packWord_and_F00F]⟩
theorem OpcodeRow.rdtcF (hub ch : Nat) : OpcodeRow.Statement (.rdtcF hub ch) :=
  ⟨by simp [Instr.row, opcodeTable], by simp [Sys2Proof.OpcodeRow.covers, Instr.row, encode, packWord_and_F00F]⟩
theorem OpcodeRow.rdcjC (hub ch : Nat) : OpcodeRow.Statement (.rdcjC hub ch) :=
  ⟨by simp [Instr.row, opcodeTable], by simp [Sys2Proof.OpcodeRow.covers, Instr.row, encode, packWord_and_F00F]⟩
theorem OpcodeRow.rdcjF (hub ch : Nat) : OpcodeRow.Statement (.rdcjF hub ch) :=
  ⟨by simp [Instr.row, opcodeTable], by simp [Sys2Proof.OpcodeRow.covers, Instr.row, encode, packWord_and_F00F]⟩
theorem OpcodeRow.avgcjC (hub : Nat) : OpcodeRow.Statement (.avgcjC hub) :=
  ⟨by simp [Instr.row, opcodeTable], by simp [Sys2Proof.OpcodeRow.covers, Instr.row, encode, packWord_and_F0FF]⟩
theorem OpcodeRow.avgcjF (hub : Nat) : OpcodeRow.Statement (.avgcjF hub) :=
  ⟨by simp [Instr.row, opcodeTable], by simp [Sys2Proof.OpcodeRow.covers, Instr.row, encode, packWord_and_F0FF]⟩

end Sys2Proof.Laws
end

