-- ==== Sys2Proof/Machine/Assembler.lean ====
section
/-! DEFINITION. The written form of commands and oracle answers (spec/30_encoding.md R76, R77): mnemonics with operands
already read as numbers, the two aliases, and the FRAMES line of a test script as line levels. -/

namespace Sys2Proof.Machine

/-- The command a mnemonic and its operands name (R76); `READALL` and `AVGJ` are aliases (R77). None: not a command. -/
def assemble (mnemonic : String) (operands : List Nat) : Option Instr :=
  let named : Option Instr :=
    match mnemonic, operands with
    | "SWEEP", [ow] => if ow ≤ 1 then some (.sweep (ow == 1)) else none
    | "READALL", [ow] => if ow ≤ 1 then some (.sweep (ow == 1)) else none
    | "RDTC.C", [hub, ch] => some (.rdtcC hub ch)
    | "RDTC.F", [hub, ch] => some (.rdtcF hub ch)
    | "RDCJ.C", [hub, ch] => some (.rdcjC hub ch)
    | "RDCJ.F", [hub, ch] => some (.rdcjF hub ch)
    | "AVGCJ.C", [hub] => some (.avgcjC hub)
    | "AVGJ", [hub] => some (.avgcjC hub)
    | "AVGCJ.F", [hub] => some (.avgcjF hub)
    | _, _ => none
  named.filter Instr.wellFormed

/-- How a command is written (R76). -/
def Instr.text (i : Instr) : String :=
  match i with
  | .sweep ow => "SWEEP " ++ (if ow then "1" else "0")
  | .rdtcC hub ch => "RDTC.C " ++ toString hub ++ ", " ++ toString ch
  | .rdtcF hub ch => "RDTC.F " ++ toString hub ++ ", " ++ toString ch
  | .rdcjC hub ch => "RDCJ.C " ++ toString hub ++ ", " ++ toString ch
  | .rdcjF hub ch => "RDCJ.F " ++ toString hub ++ ", " ++ toString ch
  | .avgcjC hub => "AVGCJ.C " ++ toString hub
  | .avgcjF hub => "AVGCJ.F " ++ toString hub

/-- Bit 31 - `k` of each frame, line 0 in bit 0 (R52). -/
def sampleBits (k : Nat) : List Frame → Nat
  | [] => 0
  | f :: fs => (f.getLsbD (31 - k)).toNat + 2 * sampleBits k fs

/-- The 32 line levels by which one capture delivers these frames, line 0 first: a FRAMES line (R76). -/
def framesScript (fs : List Frame) : List LineLevels :=
  (List.range 32).map fun k => BitVec.ofNat 16 (sampleBits k fs)

end Sys2Proof.Machine
end

