-- ==== Sys2Proof/Tests/Slice0.lean ====
section
/-! SUPPORT. The model's own tests: expected values from spec/95_test_vectors.md (section numbers in the comments) or worked
by hand from the rule named; one witness per statement of Certificates/Slice0/Obligations.lean that has hypotheses. -/

namespace Sys2Proof.Tests

open Sys2Proof.Machine

/-! ### Instances and states -/

/-- A multiplexed instance with the default sentinels (R5); `untypedFault` a value of the tester's. -/
def mux (hubs addresses : Nat) : Config where
  topology := .addressMultiplexed
  hubCount := hubs
  addressCount := addresses
  faultOpen := 10000
  faultShortToGround := 10001
  faultShortToSupply := 10002
  uninitialized := 10003
  junctionOutOfRange := 10004
  untypedFault := 77
  tTickNs := 100

/-- A chip-select instance; the two counts are not read there (R5). -/
def chip : Config := { mux 0 0 with topology := .chipSelectPerChannel }

/-- An idle block: its store, and its host's and environment's scripts. -/
def idle (c : Config) (tc cj : Memory) (host : List HostTurn) (lines : List LineLevels) : State :=
  { State.resetOf c with tc := tc, cj := cj, host := host, lines := lines }

/-- The state after an outcome that is a next state, else `s`. -/
def after (o : Host.Outcome State Fault Refusal) (s : State) : State :=
  match o with
  | .next t => t
  | .fault _ => s
  | .refused _ => s

/-- The outcome is a next state. -/
def isNext (o : Host.Outcome State Fault Refusal) : Bool :=
  match o with
  | .next _ => true
  | .fault _ => false
  | .refused _ => false

theorem next_after {o : Host.Outcome State Fault Refusal} (h : isNext o = true) (s : State) : o = .next (after o s) := by
  cases o <;> simp_all [isNext, after]

/-- The answer of a command run on `s`. -/
def answer (i : Instr) (s : State) : Option Response := (after (exec i s) s).resp

/-- The store after sweep 1 of program P2 (section 6). -/
def p2 : State :=
  idle (mux 2 2) [(0, 25), (1, 10000), (16, -10), (17, 200)] [(0, 45 / 2), (1, 45 / 2), (16, 351 / 16), (17, 23)] [] []

/-! ### Well-formedness: every check refuses an ill-formed command (R70) -/

theorem test_wellFormed_refuses :
    Instr.wellFormed (.rdtcC 16 0) = false ∧ Instr.wellFormed (.rdtcC 0 16) = false ∧
    Instr.wellFormed (.rdtcF 16 0) = false ∧ Instr.wellFormed (.rdtcF 0 16) = false ∧
    Instr.wellFormed (.rdcjC 16 0) = false ∧ Instr.wellFormed (.rdcjC 0 16) = false ∧
    Instr.wellFormed (.rdcjF 16 0) = false ∧ Instr.wellFormed (.rdcjF 0 16) = false ∧
    Instr.wellFormed (.avgcjC 16) = false ∧ Instr.wellFormed (.avgcjF 16) = false := by decide

theorem test_wellFormed_accepts :
    Instr.wellFormed (.sweep true) = true ∧ Instr.wellFormed (.rdtcC 15 15) = true ∧
    Instr.wellFormed (.rdtcF 15 15) = true ∧ Instr.wellFormed (.rdcjC 15 15) = true ∧
    Instr.wellFormed (.rdcjF 15 15) = true ∧ Instr.wellFormed (.avgcjC 15) = true ∧
    Instr.wellFormed (.avgcjF 15) = true := by decide

/-! ### Decoding: words written out field by field, op hub ch rsv ow (R70, R72) -/

theorem test_decode_sweep :
    decode 0b0001_0000_0000_000_0 = .ok (.sweep false) ∧ decode 0b0001_0000_0000_000_1 = .ok (.sweep true) := by decide
theorem test_decode_rdtcC :
    decode 0b0010_0001_0011_000_0 = .ok (.rdtcC 1 3) ∧ decode 0b0010_1000_0100_000_0 = .ok (.rdtcC 8 4) := by decide
theorem test_decode_rdtcF :
    decode 0b0011_0001_0011_000_0 = .ok (.rdtcF 1 3) ∧ decode 0b0011_0010_0001_000_0 = .ok (.rdtcF 2 1) := by decide
theorem test_decode_rdcjC :
    decode 0b0100_0000_1111_000_0 = .ok (.rdcjC 0 15) ∧ decode 0b0100_0100_1000_000_0 = .ok (.rdcjC 4 8) := by decide
theorem test_decode_rdcjF :
    decode 0b0101_0000_1111_000_0 = .ok (.rdcjF 0 15) ∧ decode 0b0101_1111_0000_000_0 = .ok (.rdcjF 15 0) := by decide
theorem test_decode_avgcjC :
    decode 0b0110_0010_0000_000_0 = .ok (.avgcjC 2) ∧ decode 0b0110_1001_0000_000_0 = .ok (.avgcjC 9) := by decide
theorem test_decode_avgcjF :
    decode 0b0111_0001_0000_000_0 = .ok (.avgcjF 1) ∧ decode 0b0111_1000_0000_000_0 = .ok (.avgcjF 8) := by decide

/-- Section 5, and each of R74 (a), (b), (c) at each field it names. -/
theorem test_decode_rejects :
    decode 0x0000 = .reject .reservedOpcode ∧ decode 0x8000 = .reject .reservedOpcode ∧
    decode 0xFFFF = .reject .reservedOpcode ∧ decode 0x1002 = .reject .reservedBits ∧
    decode 0x2008 = .reject .reservedBits ∧ decode 0x1100 = .reject .unusedField ∧
    decode 0x1010 = .reject .unusedField ∧ decode 0x2111 = .reject .unusedField ∧
    decode 0x5001 = .reject .unusedField ∧ decode 0x6010 = .reject .unusedField ∧
    decode 0x7001 = .reject .unusedField := by decide

theorem test_decodeTableWord :
    decodeTableWord 16 0x1001 = some (.sweep true) ∧ decodeTableWord 16 0x7100 = some (.avgcjF 1) ∧
    decodeTableWord 16 0x0000 = none := by decide

/-- R76, R77: the aliases name the same commands. -/
theorem test_assemble :
    assemble "READALL" [1] = some (.sweep true) ∧ assemble "AVGJ" [1] = some (.avgcjC 1) ∧
    assemble "RDTC.C" [1, 3] = some (.rdtcC 1 3) ∧ assemble "RDTC.C" [16, 0] = none ∧ assemble "SWEEP" [2] = none := by
  decide

/-! ### The Frame Decoder (section 2) -/

theorem test_decodeTc_numbers :
    decodeTc chip 0x00000000 = 0 ∧ decodeTc chip 0x00040000 = 1 / 4 ∧ decodeTc chip 0x01900000 = 25 ∧
    decodeTc chip 0x7FFC0000 = 8191 / 4 ∧ decodeTc chip 0x80000000 = -2048 ∧ decodeTc chip 0xFFFC0000 = -1 / 4 ∧
    decodeTc chip 0xFF600000 = -10 ∧ decodeTc chip 0x00020000 = 0 ∧ decodeTc chip 0xFFFEFFF8 = -1 / 4 ∧
    decodeTc chip 0x00000007 = 0 ∧ decodeTc chip 0x0C841707 = 801 / 4 ∧ decodeTc chip 0x0000FFFF = 0 := by
  decide +kernel

theorem test_decodeTc_faults :
    decodeTc chip 0x00010001 = 10000 ∧ decodeTc chip 0x00010002 = 10001 ∧ decodeTc chip 0x00010003 = 10000 ∧
    decodeTc chip 0x00010004 = 10002 ∧ decodeTc chip 0x00010005 = 10000 ∧ decodeTc chip 0x00010006 = 10001 ∧
    decodeTc chip 0x00010007 = 10000 ∧ decodeTc chip 0x00010000 = 77 ∧ decodeTc chip 0x0003FFF8 = 77 ∧
    decodeTc chip 0xFFFFFFFF = 10000 ∧ decodeTc chip 0x01911681 = 10000 ∧ decodeTc chip 0xFFFFFFFA = 10001 := by
  decide +kernel

theorem test_decodeCj :
    decodeCj 0x00000010 = 1 / 16 ∧ decodeCj 0x00001900 = 25 ∧ decodeCj 0x00006400 = 100 ∧
    decodeCj 0x00007FF0 = 2047 / 16 ∧ decodeCj 0x00008000 = -128 ∧ decodeCj 0x0000FFF0 = -1 / 16 ∧
    decodeCj 0x0000F600 = -10 ∧ decodeCj 0xFFFF000F = 0 ∧ decodeCj 0x01911681 = 45 / 2 := by
  decide +kernel

/-! ### Fahrenheit and UPDATE (section 3) -/

theorem test_fahrenheit :
    fahrenheit 25 = 77 ∧ fahrenheit (-10) = 14 ∧ fahrenheit (8191 / 4) = 74359 / 20 ∧
    fahrenheit (-2048) = -18272 / 5 ∧ fahrenheit (-1 / 16) = 2551 / 80 ∧ fahrenheit 10000 = 18032 ∧
    fahrenheit 10004 = 90196 / 5 := by decide +kernel

/-- The thermocouple half after an UPDATE of an entry that held `old`. -/
def retained (old new : Reading) (overwrite : Bool) : Reading :=
  (update 0 0 new 20 overwrite (idle chip [(0, old)] [] [] [])).readTc 0 0

theorem test_update_retention :
    (update 0 0 10000 20 false (State.resetOf chip)).readTc 0 0 = 10000 ∧
    retained 30 10000 false = 30 ∧ retained 30 10000 true = 10000 ∧ retained 30 (125 / 4) false = 125 / 4 ∧
    retained 10000 10001 false = 10000 ∧ retained 10000 10001 true = 10001 ∧
    retained 10000 (25 / 2) false = 25 / 2 ∧ retained 30 (-2048) false = -2048 ∧ retained 30 77 false = 77 := by
  decide +kernel

/-! ### One step per instruction -/

/-- Program P4: the whole sweep of a 1 by 1 instance, from reset, through `step`. -/
theorem test_step_sweep :
    let t := after (step (idle (mux 1 1) [] [] [.present 0x1000] (framesScript [0x01901680#32]))) State.reset
    t.readTc 0 0 = 25 ∧ t.readCj 0 0 = 45 / 2 ∧ t.validCount = 1#8 ∧ t.resp = some (.count 1) ∧
      t.shift = [0x01901680#32] ∧ t.tickNo = 132 ∧ t.pinHistory.length = 96 := by
  decide +kernel

/-- Program P2, sweep 3: with `overwrite` the two faults replace 25.0 and `FAULT_OPEN`; the count is 2. -/
theorem test_exec_sweep_overwrite :
    let s := { p2 with lines := framesScript [0x00011692#32, 0xFF6015F0#32] ++ framesScript [0x00011684#32, 0x0C841707#32] }
    let t := after (exec (.sweep true) s) s
    t.tc = [(0, 10001), (1, 10002), (16, -10), (17, 801 / 4)] ∧
      t.cj = [(0, 361 / 16), (1, 45 / 2), (16, 351 / 16), (17, 23)] ∧ t.resp = some (.count 2) ∧ t.a = 1#4 := by
  decide +kernel

theorem test_exec_rdtcC :
    answer (.rdtcC 0 1) p2 = some (.reading 10000) ∧ answer (.rdtcC 1 0) p2 = some (.reading (-10)) ∧
    answer (.rdtcC 2 0) p2 = some .refused ∧ answer (.rdtcC 0 2) p2 = some .refused := by decide +kernel

theorem test_exec_rdtcF :
    answer (.rdtcF 1 0) p2 = some (.reading 14) ∧ answer (.rdtcF 0 1) p2 = some (.reading 18032) := by decide +kernel

/-- Program P2, after sweep 4: 100.0625 is returned unchanged, though the aggregator rejects it. -/
theorem test_exec_rdcjC :
    answer (.rdcjC 0 0) (idle (mux 2 2) [] [(0, 1601 / 16)] [] []) = some (.reading (1601 / 16)) ∧
    answer (.rdcjC 1 0) p2 = some (.reading (351 / 16)) := by decide +kernel

/-- R147's examples: 22.5 gives 72.5, `UNINITIALIZED` gives 18037.4. -/
theorem test_exec_rdcjF :
    answer (.rdcjF 0 1) p2 = some (.reading (145 / 2)) ∧
    answer (.rdcjF 1 1) (State.resetOf (mux 2 2)) = some (.reading (90187 / 5)) := by decide +kernel

/-- One hub with these junction Readings. -/
def hubOf (cj : List Reading) : State :=
  idle (mux 1 cj.length) [] ((List.range cj.length).zip cj) [] []

/-- Section 4: both edges of the range are accepted, the nearest values outside are not, and the mean is over `N_CH`. -/
theorem test_exec_avgcjC :
    answer (.avgcjC 0) (hubOf [-10, -10, 100, 100]) = some (.reading 45) ∧
    answer (.avgcjC 0) (hubOf [25, 1601 / 16]) = some (.reading 10004) ∧
    answer (.avgcjC 0) (hubOf [-161 / 16, 25]) = some (.reading 10004) ∧
    answer (.avgcjC 0) (hubOf [20, 20, 321 / 16]) = some (.reading (961 / 48)) ∧
    answer (.avgcjC 1) (hubOf [20]) = some .refused := by decide +kernel

theorem test_exec_avgcjF :
    answer (.avgcjF 1) p2 = some (.reading (11591 / 160)) ∧
    answer (.avgcjF 0) (hubOf [20, 20, 321 / 16]) = some (.reading (5443 / 80)) ∧
    answer (.avgcjF 0) (hubOf [2047 / 16]) = some (.reading (90196 / 5)) := by decide +kernel

/-- Program P1: a reserved opcode and nonzero `rsv` are answered `Refused`. -/
theorem test_step_refused :
    (after (step (idle (mux 2 2) [] [] [.present 0x0000] [])) State.reset).resp = some .refused ∧
    (after (step (idle (mux 2 2) [] [] [.hold 0x1002] [])) State.reset).resp = some .refused := by decide +kernel

/-- Program P4, tick 35: sample 8 (bit 23 of the frame) is 1. -/
theorem test_tick_sample :
    let t := after (tick { idle (mux 1 1) [] [] [] [1] with
      phase := .sample, sck := true, bcnt := 8#6, shift := [1#32] }) State.reset
    t.shift = [3#32] ∧ t.bcnt = 9#6 ∧ t.sck = false ∧ t.phase = .low2 := by decide +kernel

/-- R192: a reset that finds the clock high lowers it, clears the store and answers nothing. -/
theorem test_tick_reset :
    let t := after (tick { idle (mux 1 1) [(0, 25)] [(0, 25)] [.reset (some 0x1000)] [] with
      phase := .sample, sck := true, bcnt := 8#6, shift := [1#32] }) State.reset
    t.block = (State.resetOf (mux 1 1)).block ∧ t.resp = none ∧ t.pinHistory = [.sck false] := by decide +kernel

/-- Every row of the opcode table runs as the first instruction after reset. -/
theorem test_reset_runs :
    (after (step (State.reset.withFetchWord 16 0x2000)) State.reset).resp = some (.reading 10003) ∧
    (after (step (State.reset.withFetchWord 16 0x6000)) State.reset).resp = some (.reading 10004) := by decide +kernel

/-! ### Witnesses: the hypotheses of each statement are met together, at the edges of their ranges -/

theorem witness_DecodeOfEncodeIsTheCommand :
    (Instr.rdtcC 15 15).WellFormed ∧ (Instr.avgcjF 0).WellFormed ∧ (Instr.sweep true).WellFormed := by decide

theorem witness_EncodeOfDecodeIsTheWord : decode 0x7F00 = .ok (.avgcjF 15) := by decide

/-- Both sides of both clauses: a word of a row of the table, and a word of none. -/
theorem witness_WordSpellsCommandExactlyByMask :
    Instr.row (.rdtcC 1 3) ∈ opcodeTable ∧ 0x2130#16 &&& 0xF00F#16 = 0x2000#16 ∧ decode 0x2130 = .ok (.rdtcC 1 3) ∧
    (∀ r ∈ opcodeTable, 0x2131#16 &&& r.mask ≠ r.value) ∧ decode 0x2131 = .reject .unusedField := by decide

/-- An idle block of `mux 2 2` that finds `w` on its port. -/
def offered (w : Word) : State := idle (mux 2 2) [] [] [.present w] []

theorem witness_StepRunsTheDecodedCommand :
    (offered 0x1001).cfg.legal = true ∧ (offered 0x1001).phase = .idle ∧ (offered 0x1001).turn.asserts = false ∧
    (offered 0x1001).turn.command = some 0x1001#16 ∧ decode 0x1001 = .ok (.sweep true) := by decide +kernel

theorem witness_PlacedWordRunsNext :
    State.reset.cfg.legal = true ∧ decodeTableWord 16 0x29F0 = some (.rdtcC 9 15) := by decide +kernel

theorem witness_RefusedWordChangesNoState :
    (offered 0x2200).cfg.legal = true ∧ (offered 0x2200).phase = .idle ∧ (offered 0x2200).turn.asserts = false ∧
    (offered 0x2200).turn.command = some 0x2200#16 ∧ refusedWord (mux 2 2) 0x2200 := by
  refine ⟨by decide +kernel, rfl, rfl, rfl, ?_⟩; simp only [refusedWord]; decide

/-- Each of R74 (a) to (e) at the edge of its range, and next to it a word that is not refused. -/
theorem witness_refusedWord_clauses :
    refusedWord (mux 2 2) 0x0FFF ∧ refusedWord (mux 2 2) 0x8000 ∧ refusedWord (mux 2 2) 0x1002 ∧
    refusedWord (mux 2 2) 0x1010 ∧ refusedWord (mux 2 2) 0x5001 ∧ refusedWord (mux 2 2) 0x7001 ∧
    refusedWord (mux 2 2) 0x6200 ∧ refusedWord (mux 2 2) 0x2020 ∧ ¬refusedWord (mux 2 2) 0x1001 ∧
    ¬refusedWord (mux 2 2) 0x2110 ∧ ¬refusedWord (mux 2 2) 0x7100 ∧ ¬refusedWord chip 0x20F0 ∧ refusedWord chip 0x2100 := by
  refine ⟨?_, ?_, ?_, ?_, ?_, ?_, ?_, ?_, ?_, ?_, ?_, ?_, ?_⟩ <;> simp only [refusedWord] <;> decide

theorem witness_QuietTickHoldsEverything :
    p2.cfg.legal = true ∧ p2.phase = .idle ∧ p2.turn.asserts = false ∧ p2.turn.command = none := by decide +kernel

/-- A busy block: at that phase and those counters. -/
def busyAt (c : Config) (p : Phase) (acnt : BitVec 4) (bcnt : BitVec 6) (host : List HostTurn) : State :=
  { idle c [(0, 25)] [(0, 45 / 2)] host [] with phase := p, acnt := acnt, bcnt := bcnt }

/-- Also the witness of ResetTickMovesThePinsToTheirResetValues. -/
theorem witness_ResetTickGivesTheResetValues :
    (busyAt chip .commit 0 32 [.reset none]).cfg.legal = true ∧
    (busyAt chip .commit 0 32 [.reset none]).turn.asserts = true := by decide +kernel

/-- A reset in the first busy tick, and in the FINISH tick (`sweepTicks` is 262 in `mux 2 2`). -/
theorem witness_ResetStopsARunningSweep :
    (mux 2 2).legal = true ∧ (mux 2 2).sweepTicks = 262 ∧ noResetWithin 0 [.reset none] = true ∧
    ((busyTurnsAfter 0 [.reset none]).headD .quiet).asserts = true ∧
    noResetWithin 260 (List.replicate 260 .quiet ++ [.reset none]) = true ∧
    ((busyTurnsAfter 260 (List.replicate 260 .quiet ++ [.reset none])).headD .quiet).asserts = true := by
  decide +kernel

theorem witness_BusyBlockAcceptsNoCommand :
    (busyAt chip .setup 0 0 []).cfg.legal = true ∧ (busyAt chip .setup 0 0 []).phase ≠ .idle := by decide +kernel

/-- The widest and the least instance are legal; `T_TICK` may be 100 ns and no less, and a sentinel must exceed 2047.75. -/
theorem witness_LegalInstanceAlwaysSteps :
    (mux 10 16).legal = true ∧ (mux 1 1).legal = true ∧ chip.legal = true ∧
    ({ chip with faultOpen := 2048 } : Config).legal = true := by decide +kernel

theorem witness_IllegalInstanceIsRefused :
    (mux 0 1).legal = false ∧ (mux 11 1).legal = false ∧ (mux 1 0).legal = false ∧ (mux 1 17).legal = false ∧
    ({ chip with tTickNs := 99 } : Config).legal = false ∧ ({ chip with faultOpen := 8191 / 4 } : Config).legal = false ∧
    ({ chip with faultOpen := 10001 } : Config).legal = false := by decide +kernel

/-- The last hub and channel, the first ones the instance lacks, and the largest index a field holds (the read commands'
statements). -/
theorem witness_read_commands :
    1 < p2.cfg.nHubs ∧ 1 < p2.cfg.nCh ∧ p2.cfg.nHubs ≤ 2 ∧ p2.cfg.nCh ≤ 2 ∧ 15 < (mux 10 16).nCh ∧ 9 < (mux 10 16).nHubs ∧
    encode (.rdtcC 15 15) = 0x2FF0#16 ∧ encode (.rdtcF 15 15) = 0x3FF0#16 ∧ encode (.rdcjC 15 15) = 0x4FF0#16 ∧
    encode (.rdcjF 15 15) = 0x5FF0#16 := by decide

theorem witness_RdtcCAnswersTheStoredReading_before_any_sweep :
    State.resetOf chip = State.resetOf (State.resetOf chip).cfg ∧ (State.resetOf chip).readTc 0 15 = 10003 := by
  decide +kernel

/-- Both edges of the range in one hub; the nearest decodable values outside it; a hub the instance lacks. -/
theorem witness_AvgcjCAnswersTheMeanOrRejects :
    0 < (hubOf [-10, 100]).cfg.nHubs ∧
    (∀ c < (hubOf [-10, 100]).cfg.nCh, -10 ≤ (hubOf [-10, 100]).readCj 0 c ∧ (hubOf [-10, 100]).readCj 0 c ≤ 100) ∧
    (∃ c < (hubOf [20, 1601 / 16]).cfg.nCh,
      (hubOf [20, 1601 / 16]).readCj 0 c < -10 ∨ 100 < (hubOf [20, 1601 / 16]).readCj 0 c) ∧
    (∃ c < (hubOf [-161 / 16]).cfg.nCh,
      (hubOf [-161 / 16]).readCj 0 c < -10 ∨ 100 < (hubOf [-161 / 16]).readCj 0 c) ∧
    (hubOf [20]).cfg.nHubs ≤ 1 ∧ encode (.avgcjC 15) = 0x6F00#16 := by decide +kernel

theorem witness_AvgcjFConvertsTheAverage :
    1 < p2.cfg.nHubs ∧ (∀ c < p2.cfg.nCh, -10 ≤ p2.readCj 1 c ∧ p2.readCj 1 c ≤ 100) ∧
    (∃ c < (State.resetOf chip).cfg.nCh, (State.resetOf chip).readCj 0 c < -10 ∨ 100 < (State.resetOf chip).readCj 0 c) ∧
    chip.nHubs ≤ 1 ∧ encode (.avgcjF 15) = 0x7F00#16 := by decide +kernel

theorem witness_MeanLiesInThePlausibleRange :
    (hubOf [100, 100]).cfg.legal = true ∧ 0 < (hubOf [100, 100]).cfg.nHubs ∧
    ∀ c < (hubOf [100, 100]).cfg.nCh, -10 ≤ (hubOf [100, 100]).readCj 0 c ∧ (hubOf [100, 100]).readCj 0 c ≤ 100 := by
  decide +kernel

/-- A block before its first sweep that has answered a refused word, with a quiet host. -/
def unswept : State := { State.resetOf (mux 10 16) with responses := [.refused], tickNo := 7 }

theorem witness_BeforeTheFirstSweepNothingIsRead :
    unswept.cfg.legal = true ∧ unswept.tc = [] ∧ unswept.cj = [] ∧ 9 < unswept.cfg.nHubs ∧ 15 < unswept.cfg.nCh := by
  decide +kernel

/-- The three ways: a reset tick with a SWEEP on the port, a quiet tick, a sweep whose FINISH tick is a reset tick. -/
theorem witness_EmptyStoreStaysEmptyWithoutASweep :
    let stopped := idle (mux 1 1) [] [] (.present 0x1000 :: List.replicate 130 .quiet ++ [.reset none]) []
    (idle (mux 1 1) [] [] [.reset (some 0x1000)] []).turn.asserts = true ∧
    isNext (step (idle (mux 1 1) [] [] [.reset (some 0x1000)] [])) = true ∧
    unswept.turn.command = none ∧ unswept.phase = .idle ∧ isNext (step unswept) = true ∧
    stopped.tc = [] ∧ stopped.cj = [] ∧ stopped.phase = .idle ∧ isNext (step stopped) = true ∧
    130 < stopped.cfg.sweepTicks - 1 ∧ noResetWithin 130 stopped.host.tail = true ∧
    ((busyTurnsAfter 130 stopped.host.tail).headD .quiet).asserts = true := by decide +kernel

theorem witness_OnlySweepChangesTheBlock :
    (∀ ow, Instr.avgcjC 0 ≠ .sweep ow) ∧ exec (.avgcjC 0) p2 = .next (after (exec (.avgcjC 0) p2) p2) :=
  ⟨nofun, rfl⟩

theorem witness_FahrenheitIsExactAndIncreasing : (-1 / 16 : Reading) < 0 ∧ fahrenheit 25 = fahrenheit (50 / 2) := by
  decide +kernel

theorem witness_SentinelThresholdTellsFailures : chip.legal = true ∧ chip.sentinelMin = 10000 := by decide +kernel

theorem witness_FaultBitsAreHonouredInPriorityOrder : (0x00010006#32).getLsbD 16 = true := by decide

theorem witness_ThermocoupleFieldIsSignExtended : (0x80000000#32).getLsbD 16 = false := by decide

theorem witness_DecodedNumbersAreNoSentinels : (0x7FFC0000#32).getLsbD 16 = false ∧ chip.legal = true := by
  decide +kernel

/-- Frames that differ only in the bits each clause says are not read. -/
theorem witness_IgnoredFrameBitsNeverMatter :
    (let f := 0x01901681#32; let g := 0x01921689#32
      f.getLsbD 16 = g.getLsbD 16 ∧ f.extractLsb' 18 14 = g.extractLsb' 18 14 ∧ f.extractLsb' 0 3 = g.extractLsb' 0 3 ∧ f ≠ g) ∧
    (let f := 0x01900000#32; let g := 0x01900007#32
      f.getLsbD 16 = false ∧ g.getLsbD 16 = false ∧ f.extractLsb' 18 14 = g.extractLsb' 18 14 ∧ f ≠ g) ∧
    (let f := 0x01910001#32; let g := 0xFFFDFFF9#32
      f.getLsbD 16 = true ∧ g.getLsbD 16 = true ∧ f.extractLsb' 0 3 = g.extractLsb' 0 3 ∧ f ≠ g) ∧
    (let f := 0x00011680#32; let g := 0xFFFE168F#32; f.extractLsb' 4 12 = g.extractLsb' 4 12 ∧ f ≠ g) := by decide

theorem witness_UpdateFollowsTheRetentionPolicy :
    p2.tc.wf p2.cfg.uninitialized ∧ p2.cj.wf p2.cfg.uninitialized ∧ (1 : Nat) < 16 ∧ ((1, 0) : Nat × Nat) ≠ (0, 1) := by
  decide +kernel

theorem witness_CaptureShiftsInEverySample : p2.sck = false ∧ 1 < p2.shift.length ∧ (31 : Nat) < 32 := by decide

/-- What every clause of the sequencer's table asks, for a busy state `s` (`b` is then what the statement defines). -/
theorem witness_SequencerFollowsTheTable :
    let mx := mux 2 2
    (mx.legal = true ∧ chip.legal = true ∧ (busyAt mx .setup 0 0 []).turn.asserts = false) ∧
    ((busyAt mx .setup 1 0 []).phase = .setup ∧ mx.topology = .addressMultiplexed) ∧
    ((busyAt chip .setup 0 0 []).phase = .setup ∧ chip.topology = .chipSelectPerChannel) ∧
    ((busyAt mx .low3 0 31 []).phase = .low3 ∧ (busyAt mx .low3 0 31 []).bcnt.toNat < 32) ∧
    ((busyAt mx .low3 0 32 []).phase = .low3 ∧ (busyAt mx .low3 0 32 []).bcnt.toNat = 32) ∧
    ((busyAt mx .commit 0 32 []).phase = .commit ∧ (busyAt mx .commit 0 32 []).acnt.toNat + 1 < mx.addressCount) ∧
    ((busyAt mx .commit 1 32 []).phase = .commit ∧ (busyAt mx .commit 1 32 []).acnt.toNat + 1 = mx.addressCount) ∧
    ((busyAt (mux 10 16) .commit 15 32 []).acnt.toNat + 1 = (mux 10 16).addressCount) ∧
    (busyAt chip .commit 0 32 []).phase = .commit ∧ (busyAt chip .rise 0 0 []).phase = .rise ∧
    (busyAt chip .sample 0 0 []).phase = .sample ∧ (busyAt chip .low2 0 1 []).phase = .low2 ∧
    (busyAt chip .finish 0 32 []).phase = .finish := by decide +kernel

theorem witness_AcceptingTickStartsASweep :
    (offered 0x6100).cfg.legal = true ∧ (offered 0x6100).phase = .idle ∧ (offered 0x6100).turn.asserts = false ∧
    (offered 0x6100).turn.command = some 0x6100#16 ∧ decode 0x6100 = .ok (.avgcjC 1) ∧
    decode 0x1000 = .ok (.sweep false) := by decide +kernel

/-- The host of a sweep may be silent, hold a word, or reset it one tick after it is over. -/
theorem witness_SweepMeetsItsPseudocode :
    p2.cfg.legal = true ∧ noResetWithin (p2.cfg.sweepTicks - 1) p2.host = true ∧
    noResetWithin (p2.cfg.sweepTicks - 1) [.hold 0x2000] = true ∧
    noResetWithin (p2.cfg.sweepTicks - 1) (List.replicate 261 .quiet ++ [.reset none]) = true := by decide +kernel

theorem witness_TickLevelAgreesWithOperationLevel :
    (offered 0x1000).cfg.legal = true ∧ (offered 0x1000).phase = .idle ∧ (offered 0x1000).turn.asserts = false ∧
    (offered 0x1000).turn.command = some 0x1000#16 ∧ decode 0x1000 = .ok (.sweep false) ∧
    noResetWithin (130 * 2 + 2 - 1) (offered 0x1000).host.tail = true := by decide +kernel

/-- The same for the chip-select topology and its 132 ticks. -/
theorem witness_TickLevelAgreesWithOperationLevel_chip :
    let s := idle chip [] [] [.hold 0x1001] []
    s.cfg.legal = true ∧ s.phase = .idle ∧ s.turn.asserts = false ∧ s.turn.command = some 0x1001#16 ∧
    decode 0x1001 = .ok (.sweep true) ∧ noResetWithin (132 - 1) s.host.tail = true := by decide +kernel

/-- Clause by clause: an entry of the instance, and a store address of none (in both topologies). -/
theorem witness_SweepUpdatesEveryEntryOnce :
    p2.cfg.legal = true ∧ p2.shift.length = p2.cfg.nLines ∧ p2.tc.wf p2.cfg.uninitialized ∧
    p2.cj.wf p2.cfg.uninitialized ∧ noResetWithin (p2.cfg.sweepTicks - 1) p2.host = true ∧
    (1 < p2.cfg.nHubs ∧ 1 < p2.cfg.nCh) ∧ ¬(2 < p2.cfg.nHubs ∧ 1 < p2.cfg.nCh) ∧ (15 < chip.nCh ∧ ¬1 < chip.nHubs) := by
  decide +kernel

theorem witness_SweepLeavesPinsAndRegisters :
    (State.resetOf chip).cfg.legal = true ∧ (State.resetOf chip).shift.length = chip.nLines ∧
    noResetWithin (chip.sweepTicks - 1) (State.resetOf chip).host = true ∧ 15 < chip.nLines := by decide +kernel

theorem witness_SweepPinHistoryIsInOrder :
    (State.resetOf chip).cfg.legal = true ∧ (State.resetOf chip).sck = false ∧ (State.resetOf chip).csN = true ∧
    noResetWithin (chip.sweepTicks - 1) (State.resetOf chip).host = true ∧ p2.sck = false := by decide +kernel

/-- One line, one address, the same frame scripted twice. -/
def twice : State := idle (mux 1 1) [] [] [] (framesScript [0x01901680#32] ++ framesScript [0x01901680#32])

/-- The second sweep starts where a step would run it: the host's turn used up, the port cleared, the tick counted. -/
theorem witness_SweepWithoutOverwriteIsIdempotent :
    let t₁ := after (exec (.sweep false) twice) twice
    let t := t₁.beginTick
    (t.cfg = t₁.cfg ∧ t.tc = t₁.tc ∧ t.cj = t₁.cj ∧ t.shift.length = t₁.shift.length ∧ t ≠ t₁) ∧
    twice.cfg.legal = true ∧ twice.shift.length = twice.cfg.nLines ∧ twice.tc.wf twice.cfg.uninitialized ∧
    twice.cj.wf twice.cfg.uninitialized ∧ noResetWithin (twice.cfg.sweepTicks - 1) twice.host = true ∧
    noResetWithin (twice.cfg.sweepTicks - 1) t.host = true ∧
    ∀ n < twice.cfg.captures, ∀ l < twice.cfg.nLines, t.captureFrame n l = twice.captureFrame n l := by decide +kernel

theorem witness_SweepWithoutOverwriteIsIdempotent_runs :
    exec (.sweep false) twice = .next (after (exec (.sweep false) twice) twice) := next_after (by decide +kernel) _

/-- An idle block of a 1 by 1 instance that a sweep of the frame 0x01901680 has filled. -/
def filled (host : List HostTurn) : State :=
  { idle (mux 1 1) [(0, 25)] [(0, 45 / 2)] host [] with shift := [0x01901680#32], validCount := 1#8 }

theorem filled_inv (host : List HostTurn) : (filled host).Inv := by
  refine ⟨(by decide +kernel : (mux 1 1).legal = true), rfl, (by decide : (1 : Nat) ≤ 1 * 1), ?_, ⟨?_, ?_⟩, ?_, ?_⟩
  · exact (by decide +kernel : Memory.wf 10003 [(0, 25)] ∧ Memory.wf 10003 [(0, 45 / 2)] ∧
      Memory.inRange (mux 1 1) [(0, 25)] ∧ Memory.inRange (mux 1 1) [(0, 45 / 2)])
  · intro e he
    obtain rfl : e = (0, 25) := by simpa [filled, idle] using he
    exact ⟨0x01901680#32, (by decide +kernel : (25 : Reading) = decodeTc (mux 1 1) 0x01901680#32)⟩
  · intro e he
    obtain rfl : e = (0, 45 / 2) := by simpa [filled, idle] using he
    exact ⟨0x01901680#32, (by decide +kernel : (45 / 2 : Reading) = decodeCj 0x01901680#32)⟩
  · exact ⟨by show (0 : Nat) < 1; decide, by show (0 : Nat) ≤ 32; decide, rfl, rfl⟩
  · exact ⟨by simp [filled, idle, State.resetOf], rfl, by show (0 : Nat) < 1; decide,
      by simp [filled, idle, State.resetOf, Phase.capturing]⟩

theorem witness_AfterASweepNothingIsUninitialized :
    (filled []).Inv ∧ noResetWithin ((filled []).cfg.sweepTicks - 1) (filled []).host = true ∧ 0 < (filled []).cfg.nHubs ∧
    0 < (filled []).cfg.nCh ∧ (filled []).cfg.untypedFault ≠ (filled []).cfg.uninitialized :=
  ⟨filled_inv _, by decide +kernel⟩

theorem witness_ExactlyOneResponsePerCommand :
    (offered 0x1001).cfg.legal = true ∧ (offered 0x1001).phase = .idle ∧ (offered 0x1001).turn.asserts = false ∧
    (offered 0x1001).turn.command = some 0x1001#16 ∧
    noResetWithin ((offered 0x1001).cfg.sweepTicks - 1) (offered 0x1001).host.tail = true := by decide +kernel

/-- The clauses' commands: a sweep (above), a read that is not refused, a refused word. -/
theorem witness_ExactlyOneResponsePerCommand_clauses :
    (decode 0x2110 = .ok (.rdtcC 1 1) ∧ ¬refusedWord (mux 2 2) 0x2110) ∧ refusedWord (mux 2 2) 0x2200 := by
  refine ⟨⟨by decide, ?_⟩, ?_⟩ <;> simp only [refusedWord] <;> decide

/-- R78: the range's ends, its neighbours outside, a value between two sixteenths, and the sentinels. -/
theorem test_exactIndex :
    chip.exactIndex (-2048) = some 0 ∧ chip.exactIndex (8191 / 4) = some 65532 ∧ chip.exactIndex (1 / 16) = some 32769 ∧
    chip.exactIndex (-2048 - 1 / 16) = none ∧ chip.exactIndex (8191 / 4 + 1 / 16) = none ∧
    chip.exactIndex (1 / 32) = none ∧ chip.exactIndex (2551 / 80) = none ∧ chip.exactIndex 10000 = some 65533 ∧
    chip.exactIndex 10004 = some 65537 := by decide +kernel

theorem witness_ReadingFormatIsExactWhereItMust :
    ((-32768 : Int) ≤ -32768 ∧ (-32768 : Int) ≤ 32764) ∧ ((-32768 : Int) ≤ 32764 ∧ (32764 : Int) ≤ 32764) ∧
    (10004 : Reading) ∈ chip.sentinels := by decide +kernel

/-- Two frames with the same Reading, and so the same code, in each clause. -/
theorem witness_DecodedReadingsKeepTheirCodes :
    decodeCj 0x00001900#32 = decodeCj 0x00011901#32 ∧
    ¬((0x00010001#32).getLsbD 16 = true ∧ (0x00010001#32).extractLsb' 0 3 = 0#3) ∧
    ¬((0x00010003#32).getLsbD 16 = true ∧ (0x00010003#32).extractLsb' 0 3 = 0#3) ∧
    decodeTc chip 0x00010001#32 = decodeTc chip 0x00010003#32 := by decide +kernel

theorem witness_RespValidIsLowWithoutAResponse :
    unswept.cfg.legal = true ∧ unswept.phase = .idle ∧ unswept.turn.command = none ∧
    (idle chip [] [] [.reset none] []).turn.asserts = true ∧
    (busyAt chip .commit 0 32 []).phase ≠ .idle ∧ (busyAt chip .commit 0 32 []).phase ≠ .finish := by decide +kernel

theorem witness_StepKeepsTheMachineInvariant :
    (filled [.present 0x1000]).Inv ∧ step (filled [.present 0x1000]) =
      .next (after (step (filled [.present 0x1000])) State.reset) :=
  ⟨filled_inv _, next_after (by decide +kernel) _⟩

theorem witness_TickKeepsTheMachineInvariant :
    (filled [.present 0x1000]).Inv ∧ tick (filled [.present 0x1000]) =
      .next (after (tick (filled [.present 0x1000])) State.reset) :=
  ⟨filled_inv _, next_after (by decide +kernel) _⟩

theorem witness_OutOfRangeSentinelIsNeverStored :
    (filled []).Inv ∧ (filled []).cfg.untypedFault ≠ (filled []).cfg.junctionOutOfRange :=
  ⟨filled_inv _, by decide +kernel⟩

theorem witness_ConfigurationNeverChanges :
    step (filled []) = .next (after (step (filled [])) State.reset) :=
  next_after (by decide +kernel) _

theorem witness_ResetMeetsTheInvariant : (mux 10 16).legal = true ∧ chip.legal = true := by decide +kernel

end Sys2Proof.Tests
end

section
/-! PROOFS. The configuration record and its sentinels: `READING_FMT` (R78), legality (R5, R24), and the threshold
`SENTINEL_MIN` (R29, R30, R172). -/

namespace Sys2Proof.Proofs

open Sys2Proof.Machine Sys2Proof.Laws

/-! ### The response format -/

/-- The Readings that `READING_FMT` must represent exactly: those with a number of their own (R78). -/
def exactReadings (c : Config) : Set Reading := {r | ∃ k, c.exactIndex r = some k}

theorem sixteenth_mem_exactReadings (c : Config) {n : Int} (h₁ : -32768 ≤ n) (h₂ : n ≤ 32764) :
    (n : Reading) / 16 ∈ exactReadings c := ⟨_, exactIndex_of_sixteenth c h₁ h₂⟩

theorem sentinel_mem_exactReadings {c : Config} {r : Reading} (h : r ∈ c.sentinels) : r ∈ exactReadings c :=
  exactIndex_of_sentinel h

/-- No two of them share a code: their numbers differ, and the free part of the format is a permutation (log 7). -/
theorem readingFmt_injOn_exactReadings (c : Config) : Set.InjOn c.readingFmt (exactReadings c) := by
  rintro r ⟨k, hr⟩ q ⟨l, hq⟩ hcode
  rw [readingFmt_of_exact hr, readingFmt_of_exact hq] at hcode
  obtain rfl : k = l := (Config.freeReadingCode c).injective hcode
  exact exactIndex_inj hr hq

/-- Settles O45: the reader is the format's inverse on the exact Readings. -/
theorem readingFormatIsExactWhereItMust : Obligations.ReadingFormatIsExactWhereItMust := by
  intro c
  have hread := (readingFmt_injOn_exactReadings c).leftInvOn_invFunOn
  exact ⟨_, fun n h₁ h₂ => hread (sixteenth_mem_exactReadings c h₁ h₂),
    fun r hr => hread (sentinel_mem_exactReadings hr)⟩

/-! ### Legality -/

theorem legalCounts_iff (c : Config) : c.legalCounts = true ↔
    (c.topology = .addressMultiplexed →
      1 ≤ c.hubCount ∧ c.hubCount ≤ 10 ∧ 1 ≤ c.addressCount ∧ c.addressCount ≤ 16) := by
  cases hm : c.topology with
  | addressMultiplexed => simp [Config.legalCounts, hm, and_assoc]
  | chipSelectPerChannel => simp [Config.legalCounts, hm]

theorem maxDecodable_eq : maxDecodable = (2047.75 : Reading) := by decide +kernel

theorem legalSentinels_iff (c : Config) : c.legalSentinels = true ↔
    c.sentinels.Nodup ∧ ∀ r ∈ c.sentinels, (2047.75 : Reading) < r := by
  simp only [Config.legalSentinels, Bool.and_eq_true, decide_eq_true_eq, List.all_eq_true, maxDecodable_eq]

theorem legalTick_iff (c : Config) : c.legalTick = true ↔ 100 ≤ c.tTickNs := decide_eq_true_iff

theorem legal_iff (c : Config) :
    c.legal = true ↔ c.legalCounts = true ∧ c.legalSentinels = true ∧ c.legalTick = true := by
  simp only [Config.legal, Bool.and_eq_true, and_assoc]

/-- Settles O14: legality is read part by part, and the edge looks at it before anything else. -/
theorem illegalInstanceIsRefused : Obligations.IllegalInstanceIsRefused := by
  refine ⟨fun c => ?_, fun s hl => ⟨edge_of_illegal hl, edge_of_illegal hl⟩⟩
  rw [legal_iff, legalCounts_iff, legalSentinels_iff, legalTick_iff]
  simp only [Config.sentinels, List.forall_mem_cons, List.not_mem_nil, false_implies, implies_true,
    true_and, and_assoc]

/-! ### The sentinel threshold -/

theorem le_lesserReading {x a b : Reading} : x ≤ lesserReading a b ↔ x ≤ a ∧ x ≤ b := le_min_iff

theorem lesserReading_mem {a b : Reading} {l : List Reading} (ha : a ∈ l) (hb : b ∈ l) : lesserReading a b ∈ l := by
  unfold lesserReading
  split
  · exact ha
  · exact hb

theorem sentinelMin_mem (c : Config) : c.sentinelMin ∈ c.sentinels := by
  refine lesserReading_mem ?_ (lesserReading_mem ?_ (lesserReading_mem ?_ (lesserReading_mem ?_ ?_))) <;>
    simp [Config.sentinels]

theorem le_sentinelMin_iff {c : Config} {x : Reading} : x ≤ c.sentinelMin ↔ ∀ r ∈ c.sentinels, x ≤ r := by
  simp [Config.sentinelMin, Config.sentinels, le_lesserReading]

/-- R29: every sentinel of a legal instance exceeds the decoders' range, the least one too. -/
theorem lt_sentinelMin_of_legal {c : Config} (h : c.legal = true) : (2047.75 : Reading) < c.sentinelMin := by
  obtain ⟨-, hsent, -⟩ := (legal_iff c).1 h
  exact ((legalSentinels_iff c).1 hsent).2 _ (sentinelMin_mem c)

theorem isSentinel_iff {c : Config} {r : Reading} : c.isSentinel r = true ↔ c.sentinelMin ≤ r :=
  decide_eq_true_iff

theorem fahrenheit_strictMono : StrictMono fahrenheit := by
  intro r q h
  unfold fahrenheit
  linarith

/-- Settles O27: the threshold is a lower bound that is attained, and the conversion keeps the order. -/
theorem sentinelThresholdTellsFailures : Obligations.SentinelThresholdTellsFailures := by
  intro c
  refine ⟨⟨sentinelMin_mem c, le_sentinelMin_iff.1 le_rfl⟩, lt_sentinelMin_of_legal, fun r => ⟨isSentinel_iff, ?_⟩⟩
  rw [isSentinel_iff, fahrenheit_strictMono.le_iff_le]

end Sys2Proof.Proofs
end

section
/-! PROOFS. One edge of the block: what each kind of edge answers and what it leaves alone (spec/10_state.md R24, R34, R35,
spec/41_bus_capture.md R119, spec/70_reset_and_hazards.md R190, R197), and the read commands' frame (R31, R55). -/

namespace Sys2Proof.Proofs

open Sys2Proof.Machine Sys2Proof.Laws

/-! ### The counts of a legal instance -/

section
variable {c : Config} (h : c.legal = true)
include h

theorem nLines_le : c.nLines ≤ 16 := by
  obtain ⟨-, hle, -⟩ := legal_bounds h
  exact hle

theorem captures_pos : 0 < c.captures := by
  obtain ⟨-, -, hpos, -⟩ := legal_bounds h
  exact hpos

theorem captures_le : c.captures ≤ 16 := by
  obtain ⟨-, -, -, hle, -⟩ := legal_bounds h
  exact hle

theorem nCh_pos : 0 < c.nCh := by
  obtain ⟨-, -, -, -, -, -, hpos, -⟩ := legal_bounds h
  exact hpos

theorem nCh_le : c.nCh ≤ 16 := by
  obtain ⟨-, -, -, -, -, -, -, hle, -⟩ := legal_bounds h
  exact hle

end

/-! ### An idle block -/

/-- Settles O5: the edge of an idle block accepts the word. -/
theorem stepRunsTheDecodedCommand : Obligations.StepRunsTheDecodedCommand := by
  intro s w i hl hp ha hc hd
  rw [step, edge_of_idle hl ha hp, acceptCommand_of_ok hc hd]
  rfl

theorem decodeTableWord_eq_some {nbits w : Nat} {i : Instr} :
    decodeTableWord nbits w = some i ↔ decode (tableWord nbits w) = .ok i := by
  unfold decodeTableWord
  cases decode (tableWord nbits w) <;> simp

/-- Settles O6: placing a word makes the block idle, with that word on its port. -/
theorem placedWordRunsNext : Obligations.PlacedWordRunsNext := by
  intro s nbits w i hl hw
  exact stepRunsTheDecodedCommand (s.withFetchWord nbits w) (tableWord nbits w) i hl rfl rfl rfl
    (decodeTableWord_eq_some.1 hw)

/-- What an idle block that answers a next state found on its port: nothing, a word that spells no command, or a command. -/
theorem acceptCommand_cases {run : Instr → State → Host.Outcome State Fault Refusal} {s t : State}
    (h : acceptCommand run s = .next t) :
    t = s.beginTick ∨ t = s.beginTick.refuse ∨
      ∃ w i, s.turn.command = some w ∧ decode w = .ok i ∧ run i s.beginTick = .next t := by
  cases hc : s.turn.command with
  | none => rw [acceptCommand_of_quiet hc] at h; cases h; exact .inl rfl
  | some w =>
    cases hd : decode w with
    | ok i => rw [acceptCommand_of_ok hc hd] at h; exact .inr (.inr ⟨w, i, rfl, hd, h⟩)
    | reject r => rw [acceptCommand_of_reject hc hd] at h; cases h; exact .inr (.inl rfl)

/-! ### Reset -/

theorem readTc_of_empty {s : State} (h : s.tc = []) (hub ch : Nat) : s.readTc hub ch = s.cfg.uninitialized := by
  rw [State.readTc, h]; rfl

theorem readCj_of_empty {s : State} (h : s.cj = []) (hub ch : Nat) : s.readCj hub ch = s.cfg.uninitialized := by
  rw [State.readCj, h]; rfl

/-- Settles O9: the reset tick ends in the reset state, with an empty store. -/
theorem resetTickGivesTheResetValues : Obligations.ResetTickGivesTheResetValues := by
  intro s hl ha
  exact ⟨resetTick s, edge_of_reset hl ha, edge_of_reset hl ha, rfl, rfl, rfl, rfl, rfl, rfl, rfl, rfl, rfl,
    fun _ _ => ⟨readTc_of_empty rfl _ _, readCj_of_empty rfl _ _⟩, rfl, rfl, rfl, rfl⟩

/-! ### A busy block -/

theorem updateLines_cfg (a : Nat) (ow : Bool) (s : State) : (updateLines a ow s).cfg = s.cfg := by
  rw [updateLines_frame]

theorem updateLines_responses (a : Nat) (ow : Bool) (s : State) : (updateLines a ow s).responses = s.responses := by
  rw [updateLines_frame]

/-- No row of the sequencer's table changes the configuration, and only FINISH answers. -/
theorem seqTick_frame (s : State) :
    (seqTick s).cfg = s.cfg ∧ (s.phase ≠ .finish → (seqTick s).responses = s.responses) := by
  cases hp : s.phase with
  | idle => rw [seqTick_idle hp]; exact ⟨rfl, fun _ => rfl⟩
  | setup => rw [seqTick_setup hp, seqSetup]; split <;> exact ⟨rfl, fun _ => rfl⟩
  | rise => rw [seqTick_rise hp]; exact ⟨rfl, fun _ => rfl⟩
  | sample => rw [seqTick_sample hp]; exact ⟨rfl, fun _ => rfl⟩
  | low2 => rw [seqTick_low2 hp]; exact ⟨rfl, fun _ => rfl⟩
  | low3 => rw [seqTick_low3 hp]; exact ⟨rfl, fun _ => rfl⟩
  | commit =>
    rw [seqTick_commit hp, seqCommit]
    split
    · dsimp only
      split <;> exact ⟨updateLines_cfg _ _ _, fun _ => updateLines_responses _ _ _⟩
    · exact ⟨updateLines_cfg _ _ _, fun _ => updateLines_responses _ _ _⟩
  | finish => rw [seqTick_finish hp]; exact ⟨rfl, fun h => absurd rfl h⟩

theorem seqTick_cfg (s : State) : (seqTick s).cfg = s.cfg := (seqTick_frame s).1

/-- But for FINISH, the sequencer leaves host, response port and tick count as the tick's beginning set them. -/
theorem seqTick_keeps_outside {s : State} (hf : s.phase ≠ .finish) :
    seqTick s = (seqTick s).outside s.host s.resp s.tickNo := seqTick_outside hf s.host s.resp s.tickNo

/-- No row of the sequencer's table looks at the host. -/
theorem seqTick_host (s : State) (h : List HostTurn) :
    seqTick { s with host := h } = { seqTick s with host := h } := by
  by_cases hf : s.phase = .finish
  · rw [seqTick_finish hf, seqTick_finish (s := { s with host := h }) hf]; rfl
  · calc seqTick { s with host := h }
        _ = (seqTick s).outside h s.resp s.tickNo := seqTick_outside hf h s.resp s.tickNo
        _ = { (seqTick s).outside s.host s.resp s.tickNo with host := h } := rfl
        _ = { seqTick s with host := h } := by rw [← seqTick_keeps_outside hf]

/-- Settles O12: a busy tick only takes the host's turn off its script, or leaves a held word there. -/
theorem busyBlockAcceptsNoCommand : Obligations.BusyBlockAcceptsNoCommand := by
  intro s w ts hl hp
  let quiet : State := { s with host := .quiet :: ts }
  have hheld : step { s with host := .hold w :: ts } =
      .next (seqTick { quiet.beginBusyTick with host := .hold w :: ts }) := edge_of_busy hl rfl hp
  refine ⟨seqTick quiet.beginBusyTick, edge_of_busy hl rfl hp, edge_of_busy hl rfl hp, ?_⟩
  rw [hheld, seqTick_host]

/-- Settles O47: a reset tick and a quiet tick clear the port, and every other row but FINISH leaves it clear. -/
theorem respValidIsLowWithoutAResponse : Obligations.RespValidIsLowWithoutAResponse := by
  intro s hl h
  by_cases ha : s.turn.asserts = true
  · exact ⟨_, edge_of_reset hl ha, rfl, rfl⟩
  rw [Bool.not_eq_true] at ha
  obtain h | ⟨hp, hc⟩ | ⟨hp, hf⟩ := h
  · simp [ha] at h
  · exact ⟨s.beginTick, by rw [tick, edge_of_idle hl ha hp, acceptCommand_of_quiet hc], rfl, rfl⟩
  · refine ⟨_, edge_of_busy hl ha hp, ?_, (seqTick_frame s.beginBusyTick).2 hf⟩
    rw [seqTick_keeps_outside (s := s.beginBusyTick) hf]
    rfl

/-! ### The commands -/

theorem sweep_or_not (i : Instr) : (∃ ow, i = .sweep ow) ∨ ∀ ow, i ≠ .sweep ow :=
  (em _).imp_right not_exists.1

/-- The command names a hub or a channel that the instance lacks (R74 (d), (e)). -/
def LackedBy (c : Config) (i : Instr) : Prop :=
  match i with
  | .sweep _ => False
  | .rdtcC hub ch => c.nHubs ≤ hub ∨ c.nCh ≤ ch
  | .rdtcF hub ch => c.nHubs ≤ hub ∨ c.nCh ≤ ch
  | .rdcjC hub ch => c.nHubs ≤ hub ∨ c.nCh ≤ ch
  | .rdcjF hub ch => c.nHubs ≤ hub ∨ c.nCh ≤ ch
  | .avgcjC hub => c.nHubs ≤ hub
  | .avgcjF hub => c.nHubs ≤ hub

theorem exec_of_lacked {i : Instr} {s : State} (h : LackedBy s.cfg i) : exec i s = .next (s.respond .refused) := by
  cases i with
  | sweep ow => exact h.elim
  | rdtcC hub ch => exact congrArg _ (answerEntry_of_lacks h _)
  | rdtcF hub ch => exact congrArg _ (answerEntry_of_lacks h _)
  | rdcjC hub ch => exact congrArg _ (answerEntry_of_lacks h _)
  | rdcjF hub ch => exact congrArg _ (answerEntry_of_lacks h _)
  | avgcjC hub => exact congrArg _ (answerHub_of_lacks h _)
  | avgcjF hub => exact congrArg _ (answerHub_of_lacks h _)

section
variable {s : State} {hub ch : Nat} (hh : hub < s.cfg.nHubs) (hc : ch < s.cfg.nCh)
include hh

include hc in
theorem exec_rdtcC_of_has :
    exec (.rdtcC hub ch) s = .next (s.respond (.reading (s.readTc hub ch))) :=
  congrArg _ (answerEntry_of_has hh hc _)

include hc in
theorem exec_rdtcF_of_has :
    exec (.rdtcF hub ch) s = .next (s.respond (.reading (fahrenheit (s.readTc hub ch)))) :=
  congrArg _ (answerEntry_of_has hh hc _)

include hc in
theorem exec_rdcjC_of_has :
    exec (.rdcjC hub ch) s = .next (s.respond (.reading (s.readCj hub ch))) :=
  congrArg _ (answerEntry_of_has hh hc _)

include hc in
theorem exec_rdcjF_of_has :
    exec (.rdcjF hub ch) s = .next (s.respond (.reading (fahrenheit (s.readCj hub ch)))) :=
  congrArg _ (answerEntry_of_has hh hc _)

theorem exec_avgcjC_of_has :
    exec (.avgcjC hub) s = .next (s.respond (.reading (s.averageCj hub))) :=
  congrArg _ (answerHub_of_has hh _)

theorem exec_avgcjF_of_has :
    exec (.avgcjF hub) s = .next (s.respond (.reading (fahrenheit (s.averageCj hub)))) :=
  congrArg _ (answerHub_of_has hh _)

end

theorem exec_of_served {i : Instr} {s : State} (hi : ∀ ow, i ≠ .sweep ow) (h : ¬ LackedBy s.cfg i) :
    ∃ x, exec i s = .next (s.respond (.reading x)) := by
  cases i with
  | sweep ow => exact absurd rfl (hi ow)
  | rdtcC hub ch => exact ⟨_, exec_rdtcC_of_has (not_le.1 (not_or.1 h).1) (not_le.1 (not_or.1 h).2)⟩
  | rdtcF hub ch => exact ⟨_, exec_rdtcF_of_has (not_le.1 (not_or.1 h).1) (not_le.1 (not_or.1 h).2)⟩
  | rdcjC hub ch => exact ⟨_, exec_rdcjC_of_has (not_le.1 (not_or.1 h).1) (not_le.1 (not_or.1 h).2)⟩
  | rdcjF hub ch => exact ⟨_, exec_rdcjF_of_has (not_le.1 (not_or.1 h).1) (not_le.1 (not_or.1 h).2)⟩
  | avgcjC hub => exact ⟨_, exec_avgcjC_of_has (not_le.1 h)⟩
  | avgcjF hub => exact ⟨_, exec_avgcjF_of_has (not_le.1 h)⟩

/-- A command other than SWEEP does nothing but answer. -/
theorem exec_of_not_sweep {i : Instr} (hi : ∀ ow, i ≠ .sweep ow) (s : State) : ∃ r, exec i s = .next (s.respond r) := by
  by_cases h : LackedBy s.cfg i
  · exact ⟨_, exec_of_lacked h⟩
  · obtain ⟨x, hx⟩ := exec_of_served hi h
    exact ⟨_, hx⟩

theorem exec_sweep (ow : Bool) (s : State) :
    exec (.sweep ow) s = .next (runBusy (s.cfg.sweepTicks - 1) (acceptSweep ow s)) := rfl

theorem firstTick_of_not_sweep {i : Instr} (hi : ∀ ow, i ≠ .sweep ow) : firstTick i = exec i := by
  cases i with
  | sweep ow => exact absurd rfl (hi ow)
  | _ => rfl

/-- Settles O25: a response is all such a command gives. -/
theorem onlySweepChangesTheBlock : Obligations.OnlySweepChangesTheBlock := by
  intro i s t hi ht
  obtain ⟨r, hr⟩ := exec_of_not_sweep hi s
  cases hr.symm.trans ht
  exact ⟨rfl, rfl, rfl, rfl, rfl, rfl, rfl, r, rfl, rfl⟩

/-! ### Read commands before the first sweep -/

theorem fahrenheit_eq (r : Reading) : fahrenheit r = (9 * r + 160) / 5 := by unfold fahrenheit; ring

theorem sentinel_gt_of_legal {c : Config} (h : c.legal = true) {r : Reading} (hr : r ∈ c.sentinels) :
    (2047.75 : Reading) < r := (lt_sentinelMin_of_legal h).trans_le (le_sentinelMin_iff.1 le_rfl r hr)

/-- `UNINITIALIZED` is implausible, and a hub has a channel. -/
theorem averageCj_of_empty {s : State} (hl : s.cfg.legal = true) (hj : s.cj = []) (hub : Nat) :
    s.averageCj hub = s.cfg.junctionOutOfRange := by
  have hbig : implausible s.cfg.uninitialized = true := by
    have : (2047.75 : Reading) < s.cfg.uninitialized := sentinel_gt_of_legal hl (by simp [Config.sentinels])
    simp only [implausible, Bool.or_eq_true, decide_eq_true_eq]
    right; linarith
  have hany : (s.hubJunctions hub).any implausible = true :=
    List.any_eq_true.2 ⟨s.readCj hub 0, List.mem_map.2 ⟨0, List.mem_range.2 (nCh_pos hl), rfl⟩, by
      rwa [readCj_of_empty hj]⟩
  rw [State.averageCj, if_pos hany]

/-- Settles O22: both halves read as `UNINITIALIZED`, and a read leaves them so. -/
theorem beforeTheFirstSweepNothingIsRead : Obligations.BeforeTheFirstSweepNothingIsRead := by
  intro s hub ch hl ht hj hhub hch
  have htc := readTc_of_empty ht hub ch
  have hcj := readCj_of_empty hj hub ch
  have havg := averageCj_of_empty hl hj hub
  refine ⟨_, _, _, _, _, _, exec_rdtcC_of_has hhub hch, ?_, exec_rdtcF_of_has hhub hch, ?_,
    exec_rdcjC_of_has hhub hch, ?_, exec_rdcjF_of_has hhub hch, ?_, exec_avgcjC_of_has hhub, ?_,
    exec_avgcjF_of_has hhub, ?_, ?_⟩ <;> simp [htc, hcj, havg, fahrenheit_eq, ht, hj]

/-! ### What every step and every tick keep -/

/-- A property of states that every row of the sequencer's table and every reset keep, that an idle block keeps when it
accepts a SWEEP, and that does not look at the ports, the host and the tick count. -/
structure Stable (P : State → Prop) : Prop where
  reset : ∀ {s}, P s → P (resetTick s)
  sequencer : ∀ {s}, P s → P (seqTick s)
  accept : ∀ {s} ow, s.phase = .idle → P s → P (acceptSweep ow s)
  answer : ∀ {s} r, P s → P (s.respond r)
  outside : ∀ {s} h r n, P s → P (s.outside h r n)

section
variable {P : State → Prop} (hP : Stable P)
include hP

theorem Stable.beginTick {s : State} (h : P s) : P s.beginTick := hP.outside _ _ _ h

theorem Stable.beginBusyTick {s : State} (h : P s) : P s.beginBusyTick := hP.outside _ _ _ h

theorem Stable.busyTick {s : State} (h : P s) : P (busyTick s) := by
  unfold Machine.busyTick
  split
  · exact hP.reset h
  · exact hP.sequencer (hP.beginBusyTick h)

theorem Stable.runBusy (n : Nat) {s : State} (h : P s) : P (runBusy n s) := by
  induction n generalizing s with
  | zero => exact h
  | succ n ih =>
    unfold Machine.runBusy
    split
    · exact ih (hP.busyTick h)
    · exact h

theorem Stable.exec (i : Instr) {s t : State} (hp : s.phase = .idle) (h : P s) (ht : exec i s = .next t) : P t := by
  obtain ⟨ow, rfl⟩ | hi := sweep_or_not i
  · cases ht
    exact hP.runBusy _ (hP.accept ow hp h)
  · obtain ⟨r, hr⟩ := exec_of_not_sweep hi s
    cases hr.symm.trans ht
    exact hP.answer r h

theorem Stable.firstTick (i : Instr) {s t : State} (hp : s.phase = .idle) (h : P s) (ht : firstTick i s = .next t) :
    P t := by
  obtain ⟨ow, rfl⟩ | hi := sweep_or_not i
  · cases ht
    exact hP.accept ow hp h
  · rw [firstTick_of_not_sweep hi] at ht
    exact hP.exec i hp h ht

theorem Stable.edge {run : Instr → State → Host.Outcome State Fault Refusal}
    (hrun : ∀ (i : Instr) {s t : State}, s.phase = .idle → P s → run i s = .next t → P t) {s t : State} (h : P s)
    (ht : edge run s = .next t) : P t := by
  obtain ⟨-, rfl | ⟨-, -, rfl⟩ | ⟨-, hp, rfl | rfl | ⟨i, hi⟩⟩⟩ := edge_cases ht
  · exact hP.reset h
  · exact hP.sequencer (hP.beginBusyTick h)
  · exact hP.beginTick h
  · exact hP.answer .refused (hP.beginTick h)
  · exact hrun i (s := s.beginTick) hp (hP.beginTick h) hi

theorem Stable.step {s t : State} (h : P s) (ht : step s = .next t) : P t := hP.edge hP.exec h ht

theorem Stable.tick {s t : State} (h : P s) (ht : tick s = .next t) : P t := hP.edge hP.firstTick h ht

end

theorem stable_cfg (c : Config) : Stable (fun s => s.cfg = c) where
  reset h := h
  sequencer h := (seqTick_cfg _).trans h
  accept _ _ h := h
  answer _ h := h
  outside _ _ _ h := h

/-- Settles O52: keeping one configuration is a stable property. -/
theorem configurationNeverChanges : Obligations.ConfigurationNeverChanges := by
  rintro s t (ht | ht)
  · exact (stable_cfg s.cfg).step rfl ht
  · exact (stable_cfg s.cfg).tick rfl ht

end Sys2Proof.Proofs
end

section
/-! PROOFS. The fields of a command word: which words the decoder accepts (spec/30_encoding.md R70 to R73), and that R74
refuses exactly those it rejects and those whose command names an entry the instance lacks. -/

namespace Sys2Proof.Proofs

open Sys2Proof.Machine

theorem opField_eq (w : Word) : opField w = w.toNat / 4096 := by
  simp [opField, Nat.shiftRight_eq_div_pow]; omega

theorem hubField_eq (w : Word) : hubField w = w.toNat / 256 % 16 := by
  simp [hubField, Nat.shiftRight_eq_div_pow]

theorem chField_eq (w : Word) : chField w = w.toNat / 16 % 16 := by
  simp [chField, Nat.shiftRight_eq_div_pow]

theorem rsvField_eq (w : Word) : rsvField w = w.toNat / 2 % 8 := by
  simp [rsvField, Nat.shiftRight_eq_div_pow]

theorem owField_eq_false_iff (w : Word) : owField w = false ↔ w.toNat % 2 = 0 := by
  rw [owField, ← BitVec.testBit_toNat, Nat.testBit_zero, decide_eq_false_iff_not]
  omega

/-- The fields of the words of a command, `rsv` apart (R70 to R73). -/
def HasFields (w : Word) (i : Instr) : Prop :=
  match i with
  | .sweep ow => opField w = 1 ∧ hubField w = 0 ∧ chField w = 0 ∧ owField w = ow
  | .rdtcC hub ch => opField w = 2 ∧ hubField w = hub ∧ chField w = ch ∧ owField w = false
  | .rdtcF hub ch => opField w = 3 ∧ hubField w = hub ∧ chField w = ch ∧ owField w = false
  | .rdcjC hub ch => opField w = 4 ∧ hubField w = hub ∧ chField w = ch ∧ owField w = false
  | .rdcjF hub ch => opField w = 5 ∧ hubField w = hub ∧ chField w = ch ∧ owField w = false
  | .avgcjC hub => opField w = 6 ∧ hubField w = hub ∧ chField w = 0 ∧ owField w = false
  | .avgcjF hub => opField w = 7 ∧ hubField w = hub ∧ chField w = 0 ∧ owField w = false

theorem acceptIf_eq_ok {b : Bool} {i j : Instr} : acceptIf b i = .ok j ↔ b = true ∧ i = j := by
  cases b <;> simp [acceptIf]

theorem hasFields_of_decode {w : Word} {i : Instr} (h : decode w = .ok i) : rsvField w = 0 ∧ HasFields w i := by
  have inner : ∀ {b j}, (if rsvField w = 0 then acceptIf b j else .reject .reservedBits) = .ok i →
      rsvField w = 0 ∧ b = true ∧ j = i := by
    intro b j h
    split at h
    · exact ⟨‹_›, acceptIf_eq_ok.1 h⟩
    · cases h
  unfold decode at h
  dsimp only at h
  split at h
  case h_8 => cases h
  all_goals
    obtain ⟨hr, hb, rfl⟩ := inner h
    simp_all [HasFields]

theorem decode_of_hasFields {w : Word} {i : Instr} (hr : rsvField w = 0) (h : HasFields w i) : decode w = .ok i := by
  cases i <;> obtain ⟨hop, hhub, hch, how⟩ := h <;> simp [decode, acceptIf, *]

theorem decode_eq_ok_iff {w : Word} {i : Instr} : decode w = .ok i ↔ rsvField w = 0 ∧ HasFields w i :=
  ⟨hasFields_of_decode, fun h => decode_of_hasFields h.1 h.2⟩

/-- R74 in the decoder's fields. -/
theorem refusedWord_iff_fields (c : Config) (w : Word) : refusedWord c w ↔
    (opField w = 0 ∨ 8 ≤ opField w) ∨ rsvField w ≠ 0 ∨
    ((opField w = 1 ∧ (hubField w ≠ 0 ∨ chField w ≠ 0)) ∨
      (2 ≤ opField w ∧ opField w ≤ 5 ∧ owField w ≠ false) ∨
      (6 ≤ opField w ∧ opField w ≤ 7 ∧ (chField w ≠ 0 ∨ owField w ≠ false))) ∨
    (2 ≤ opField w ∧ opField w ≤ 7 ∧ c.nHubs ≤ hubField w) ∨
    (2 ≤ opField w ∧ opField w ≤ 5 ∧ c.nCh ≤ chField w) := by
  simp only [refusedWord, opField_eq, hubField_eq, chField_eq, rsvField_eq, ne_eq, owField_eq_false_iff]

theorem refusedWord_iff_lackedBy {w : Word} {i : Instr} (h : decode w = .ok i) (c : Config) :
    refusedWord c w ↔ LackedBy c i := by
  obtain ⟨hr, hf⟩ := decode_eq_ok_iff.1 h
  rw [refusedWord_iff_fields]
  cases i <;> simp only [HasFields] at hf <;> simp [LackedBy, hr, hf]

theorem refusedWord_of_reject {w : Word} {r : RejectReason} (h : decode w = .reject r) (c : Config) :
    refusedWord c w := by
  by_contra hn
  have hno : ∀ i, rsvField w = 0 → ¬ HasFields w i := fun i hr hf => by
    rw [decode_of_hasFields hr hf] at h; cases h
  simp only [refusedWord_iff_fields, not_or, not_and, not_le, ne_eq, not_not] at hn
  obtain ⟨⟨hop0, hop8⟩, hr, ⟨hsweep, hentry, hhub⟩, -, -⟩ := hn
  obtain hop | hop | hop | hop | hop | hop | hop : opField w = 1 ∨ opField w = 2 ∨ opField w = 3 ∨ opField w = 4 ∨
      opField w = 5 ∨ opField w = 6 ∨ opField w = 7 := by omega
  · exact hno (.sweep _) hr ⟨hop, (hsweep hop).1, (hsweep hop).2, rfl⟩
  · exact hno (.rdtcC _ _) hr ⟨hop, rfl, rfl, hentry (by omega) (by omega)⟩
  · exact hno (.rdtcF _ _) hr ⟨hop, rfl, rfl, hentry (by omega) (by omega)⟩
  · exact hno (.rdcjC _ _) hr ⟨hop, rfl, rfl, hentry (by omega) (by omega)⟩
  · exact hno (.rdcjF _ _) hr ⟨hop, rfl, rfl, hentry (by omega) (by omega)⟩
  · exact hno (.avgcjC _) hr ⟨hop, rfl, hhub (by omega) (by omega)⟩
  · exact hno (.avgcjF _) hr ⟨hop, rfl, hhub (by omega) (by omega)⟩

end Sys2Proof.Proofs
end

section
/-! PROOFS. The machine's invariant (spec/10_state.md R22, R25, R27, R32): it holds at reset, and every step and every
tick keep it. The invariant falls into three parts that are kept for different reasons: the data (store, shift registers,
status), the counters against the phase, the pins against the phase. -/

namespace Sys2Proof.Proofs

open Sys2Proof.Machine Sys2Proof.Laws

/-! ### The parts of the invariant -/

/-- The part of the invariant that no counter, pin or phase plays a part in. -/
def DataInv (s : State) : Prop :=
  s.cfg.legal = true ∧ s.shift.length = s.cfg.nLines ∧ s.validCount.toNat ≤ s.cfg.nHubs * s.cfg.nCh ∧
  s.StoreInv ∧ s.ReadingsInv

theorem inv_iff (s : State) : s.Inv ↔ DataInv s ∧ s.SequencerInv ∧ s.PinInv := by
  simp only [State.Inv, DataInv, and_assoc]

/-! ### Reset -/

theorem resetOf_dataInv {c : Config} (h : c.legal = true) : DataInv (State.resetOf c) := by
  refine ⟨h, by simp [State.resetOf], by simp [State.resetOf], ⟨?_, ?_, ?_, ?_⟩, ?_, ?_⟩ <;>
    simp [State.resetOf, Memory.wf, Memory.inRange]

theorem resetOf_sequencerInv {c : Config} (h : c.legal = true) : (State.resetOf c).SequencerInv :=
  ⟨captures_pos h, by simp [State.resetOf], rfl, rfl⟩

theorem resetOf_pinInv {c : Config} (h : c.legal = true) : (State.resetOf c).PinInv := by
  have hpos := captures_pos h
  cases hm : c.topology with
  | addressMultiplexed =>
    simp only [Config.captures, hm] at hpos
    simp [State.PinInv, State.resetOf, hm, hpos, Phase.capturing]
  | chipSelectPerChannel => simp [State.PinInv, State.resetOf, hm, Phase.capturing]

theorem resetOf_inv {c : Config} (h : c.legal = true) : (State.resetOf c).Inv :=
  (inv_iff _).2 ⟨resetOf_dataInv h, resetOf_sequencerInv h, resetOf_pinInv h⟩

theorem resetTick_inv {s : State} (h : s.cfg.legal = true) : (resetTick s).Inv := resetOf_inv h

/-- The instance of `State.reset` is legal, whatever its `UNTYPED_FAULT`. -/
theorem fullMultiplexed_legal : fullMultiplexed.legal = true := by
  have hcounts : fullMultiplexed.legalCounts = true := rfl
  have hsent : fullMultiplexed.legalSentinels = true := by decide +kernel
  have htick : fullMultiplexed.legalTick = true := by decide +kernel
  exact (legal_iff _).2 ⟨hcounts, hsent, htick⟩

/-- Settles O48: every register at its reset value meets its part of the invariant. -/
theorem resetMeetsTheInvariant : Obligations.ResetMeetsTheInvariant :=
  ⟨fun _ => resetOf_inv, resetOf_inv fullMultiplexed_legal⟩

/-! ### One tick of the sequencer, part by part -/

theorem takeSample_dataInv {s : State} (h : DataInv s) : DataInv s.takeSample := by
  obtain ⟨hlegal, hshift, hcount, hstore, hread⟩ := h
  exact ⟨hlegal, by simpa using hshift, hcount, hstore, hread⟩

theorem updateLines_dataInv {s : State} (h : DataInv s) {a : Nat} (ha : a < s.cfg.captures) (ow : Bool) :
    DataInv (updateLines a ow s) := by
  obtain ⟨hlegal, hshift, hcount, hstore, hread⟩ := h
  obtain ⟨hstore', hread'⟩ := updateLines_storeInv hlegal ha ow hstore hread
  refine ⟨?_, ?_, ?_, hstore', hread'⟩ <;> rw [updateLines_frame] <;> assumption

theorem finishSweep_dataInv {s : State} (h : DataInv s) : DataInv (finishSweep s) := by
  obtain ⟨hlegal, hshift, -, hstore, hread⟩ := h
  refine ⟨hlegal, hshift, ?_, hstore, hread⟩
  calc (BitVec.ofNat 8 s.countValid).toNat
      _ ≤ s.countValid := by rw [BitVec.toNat_ofNat]; exact Nat.mod_le _ _
      _ ≤ s.cfg.nHubs * s.cfg.nCh := countValid_le s

/-- The sequencer's data: only SAMPLE, COMMIT and FINISH touch any. -/
theorem seqTick_dataInv {s : State} (h : DataInv s) (ha : s.acnt.toNat < s.cfg.captures) : DataInv (seqTick s) := by
  cases hp : s.phase with
  | idle => rwa [seqTick_idle hp]
  | setup =>
    rw [seqTick_setup hp, seqSetup]
    split <;> exact h
  | rise => rw [seqTick_rise hp]; exact h
  | sample => rw [seqTick_sample hp]; exact takeSample_dataInv h
  | low2 => rw [seqTick_low2 hp]; exact h
  | low3 => rw [seqTick_low3 hp]; exact h
  | commit =>
    rw [seqTick_commit hp, seqCommit]
    split
    · dsimp only
      split <;> exact updateLines_dataInv h ha s.ow
    · exact updateLines_dataInv (s := s.driveCsN true) h (captures_pos h.1) s.ow
  | finish => rw [seqTick_finish hp]; exact finishSweep_dataInv h

theorem captures_of_multiplexed {c : Config} (hm : c.topology = .addressMultiplexed) : c.captures = c.addressCount := by
  simp [Config.captures, hm]

theorem captures_of_chipSelect {c : Config} (hm : c.topology = .chipSelectPerChannel) : c.captures = 1 := by
  simp [Config.captures, hm]

theorem seqTick_sequencerInv {s : State} (hl : s.cfg.legal = true) (h : s.SequencerInv) :
    (seqTick s).SequencerInv := by
  have hcap := captures_le hl
  obtain ⟨ha, hb, hphase⟩ := id h
  cases hp : s.phase with
  | idle => rwa [seqTick_idle hp]
  | setup =>
    rw [seqTick_setup hp, seqSetup]
    split <;> exact ⟨ha, Nat.zero_le _, by show (0 : Nat) < 32; omega⟩
  | rise =>
    simp only [hp] at hphase
    rw [seqTick_rise hp]
    exact ⟨ha, hb, hphase⟩
  | sample =>
    simp only [hp] at hphase
    have hbc : (s.bcnt + 1#6).toNat = s.bcnt.toNat + 1 := by
      rw [BitVec.toNat_add_of_lt] <;> simp; omega
    rw [seqTick_sample hp]
    exact ⟨ha, by show (s.bcnt + 1#6).toNat ≤ 32; omega, by show 1 ≤ (s.bcnt + 1#6).toNat; omega⟩
  | low2 =>
    simp only [hp] at hphase
    rw [seqTick_low2 hp]
    exact ⟨ha, hb, hphase⟩
  | low3 =>
    rw [seqTick_low3 hp, seqLow3]
    split
    · exact ⟨ha, hb, ‹_›⟩
    · exact ⟨ha, hb, by show s.bcnt.toNat = 32; omega⟩
  | commit =>
    simp only [hp] at hphase
    rw [seqTick_commit hp, seqCommit]
    split <;> rename_i hm
    · have hcount := captures_of_multiplexed hm
      rw [updateLines_frame]
      dsimp only
      split
      · have hac : (s.acnt + 1#4).toNat = s.acnt.toNat + 1 := by
          rw [BitVec.toNat_add_of_lt] <;> simp; omega
        exact ⟨by show (s.acnt + 1#4).toNat < s.cfg.captures; omega, hb, trivial⟩
      · exact ⟨ha, hb, hphase, by show s.acnt.toNat + 1 = s.cfg.captures; omega⟩
    · have hcount := captures_of_chipSelect hm
      rw [updateLines_frame]
      exact ⟨ha, hb, hphase, by show s.acnt.toNat + 1 = s.cfg.captures; omega⟩
  | finish =>
    rw [seqTick_finish hp]
    exact ⟨captures_pos hl, Nat.zero_le _, rfl, rfl⟩

/-- Inside a capture, and outside one, only the clock has to follow the phase. -/
theorem pinInv_of_unmoved {s t : State} (h : s.PinInv) (hcfg : t.cfg = s.cfg) (ha : t.a = s.a) (hcs : t.csN = s.csN)
    (hcap : t.phase.capturing = s.phase.capturing) (hacnt : t.phase.capturing = true → t.acnt = s.acnt)
    (hsck : t.sck = true ↔ t.phase = .sample) : t.PinInv := by
  refine ⟨hsck, ?_⟩
  obtain ⟨-, hpins⟩ := h
  rw [hcfg]
  cases hm : s.cfg.topology with
  | addressMultiplexed =>
    simp only [hm] at hpins ⊢
    obtain ⟨hhigh, hrange, haddr⟩ := hpins
    exact ⟨hcs.trans hhigh, ha ▸ hrange, fun hc => by rw [ha, hacnt hc, haddr (hcap ▸ hc)]⟩
  | chipSelectPerChannel =>
    simp only [hm] at hpins ⊢
    rwa [ha, hcs, hcap]

/-- SETUP puts the address on the bus, or lowers the chip-select. -/
theorem seqSetup_pinInv {s : State} (ha : s.acnt.toNat < s.cfg.captures) (hp : s.phase = .setup) (h : s.PinInv) :
    (seqSetup s).PinInv := by
  obtain ⟨hsck, hpins⟩ := h
  have hlow : s.sck = false := by simpa [hp] using hsck
  rw [seqSetup]
  split <;> rename_i hm
  · rw [captures_of_multiplexed hm] at ha
    simp only [hm] at hpins
    simp [State.PinInv, addrDrive, hm, hlow, hpins.1, ha]
  · simp only [hm] at hpins
    simp [State.PinInv, hm, hlow, hpins.1, Phase.capturing]

/-- COMMIT ends the capture: the address may stay on the bus, the chip-select rises. -/
theorem seqCommit_pinInv {s : State} (hp : s.phase = .commit) (h : s.PinInv) : (seqCommit s).PinInv := by
  obtain ⟨hsck, hpins⟩ := h
  have hlow : s.sck = false := by simpa [hp] using hsck
  rw [seqCommit, updateLines_frame]
  split <;> rename_i hm <;> simp only [hm] at hpins
  · obtain ⟨hhigh, hrange, -⟩ := hpins
    dsimp only
    split <;> simp [State.PinInv, hm, hlow, hhigh, hrange, Phase.capturing]
  · rw [updateLines_frame]
    simp [State.PinInv, hm, hlow, hpins.1, Phase.capturing]

theorem seqTick_pinInv {s : State} (ha : s.acnt.toNat < s.cfg.captures) (h : s.PinInv) : (seqTick s).PinInv := by
  cases hp : s.phase with
  | idle => rwa [seqTick_idle hp]
  | setup => rw [seqTick_setup hp]; exact seqSetup_pinInv ha hp h
  | rise =>
    rw [seqTick_rise hp]
    exact pinInv_of_unmoved h rfl rfl rfl (by rw [hp]; rfl) (fun _ => rfl) (by simp [seqRise])
  | sample =>
    rw [seqTick_sample hp]
    exact pinInv_of_unmoved h rfl rfl rfl (by rw [hp]; rfl) (fun _ => rfl) (by simp [seqSample])
  | low2 =>
    rw [seqTick_low2 hp]
    exact pinInv_of_unmoved h rfl rfl rfl (by rw [hp]; rfl) (fun _ => rfl) (by simp [seqLow2])
  | low3 =>
    rw [seqTick_low3 hp, seqLow3]
    split <;> exact pinInv_of_unmoved h rfl rfl rfl (by rw [hp]; rfl) (fun _ => rfl) (by simp)
  | commit => rw [seqTick_commit hp]; exact seqCommit_pinInv hp h
  | finish =>
    have hlow : s.sck = false := by simpa [hp] using h.1
    rw [seqTick_finish hp]
    exact pinInv_of_unmoved h rfl rfl rfl (by rw [hp]; rfl) nofun (by simp [finishSweep, hlow])

/-! ### Every tick, every step -/

theorem seqTick_inv {s : State} (h : s.Inv) : (seqTick s).Inv := by
  obtain ⟨hdata, hseq, hpin⟩ := (inv_iff s).1 h
  exact (inv_iff _).2 ⟨seqTick_dataInv hdata hseq.1, seqTick_sequencerInv hdata.1 hseq, seqTick_pinInv hseq.1 hpin⟩

/-- From an idle block, whose clock is low and whose chip-select is high. -/
theorem acceptSweep_inv {s : State} (h : s.Inv) (hp : s.phase = .idle) (ow : Bool) : (acceptSweep ow s).Inv := by
  obtain ⟨hdata, hseq, hpin⟩ := (inv_iff s).1 h
  have hlow : s.sck = false := by simpa [hp] using hpin.1
  exact (inv_iff _).2 ⟨hdata, ⟨captures_pos hdata.1, Nat.zero_le _, trivial⟩,
    pinInv_of_unmoved hpin rfl rfl rfl (by rw [hp]; rfl) nofun (by simp [acceptSweep, hlow])⟩

/-- The invariant says nothing of the response port, the host's turns and the tick count. -/
theorem stable_inv : Stable State.Inv where
  reset h := resetTick_inv h.1
  sequencer h := seqTick_inv h
  accept ow hp h := acceptSweep_inv h hp ow
  answer _ h := h
  outside _ _ _ h := h

/-- Settles O49: a whole command is answered at once or is a run of busy ticks, and each of those keeps the invariant. -/
theorem stepKeepsTheMachineInvariant : Obligations.StepKeepsTheMachineInvariant :=
  fun _ _ => stable_inv.step

/-- Settles O50: the tick that accepts a SWEEP only begins it, and every other tick does what the step does. -/
theorem tickKeepsTheMachineInvariant : Obligations.TickKeepsTheMachineInvariant :=
  fun _ _ => stable_inv.tick

end Sys2Proof.Proofs
end

section
/-! PROOFS. Which Readings a store can hold (spec/10_state.md R32, spec/40_frame_decoder.md R91, R95, R99): the bound of
the decoded numbers, and the two sentinels that no fault bit names. -/

namespace Sys2Proof.Proofs

open Sys2Proof.Machine

theorem cjCode_le (f : Frame) : cjCode f ≤ 2047 := by
  unfold cjCode
  dsimp only
  split
  · omega
  · have : (((f >>> 4) &&& 0xFFF#32) &&& 0x7FF#32).toNat ≤ 2047 := by
      rw [BitVec.toNat_and]; exact Nat.and_le_right
    omega

theorem tcCode_le (f : Frame) : tcCode f ≤ 8191 := by
  unfold tcCode
  dsimp only
  split
  · omega
  · have : ((f >>> 18) &&& 0x1FFF#32).toNat ≤ 8191 := by
      rw [BitVec.toNat_and]; exact Nat.and_le_right
    omega

/-- R95, R99: no decoded number exceeds the decoders' range. -/
theorem decodeCj_le (f : Frame) : decodeCj f ≤ (2047.75 : Reading) := by
  have h : (cjCode f : Reading) ≤ 2047 := by exact_mod_cast cjCode_le f
  unfold decodeCj
  linarith

theorem decodeTc_le_of_no_fault (c : Config) {f : Frame} (hf : f.getLsbD 16 = false) :
    decodeTc c f ≤ (2047.75 : Reading) := by
  have h : (tcCode f : Reading) ≤ 8191 := by exact_mod_cast tcCode_le f
  rw [decodeTc, hf, if_neg (by decide)]
  linarith

theorem faultReading_mem (c : Config) (f : Frame) :
    faultReading c f ∈ [c.faultOpen, c.faultShortToGround, c.faultShortToSupply, c.untypedFault] := by
  unfold faultReading
  split_ifs <;> simp

theorem decodeCj_not_sentinel {c : Config} (h : c.legal = true) (f : Frame) : c.isSentinel (decodeCj f) = false := by
  rw [← Bool.not_eq_true, isSentinel_iff, not_le]
  exact (decodeCj_le f).trans_lt (lt_sentinelMin_of_legal h)

theorem sentinels_nodup_of_legal {c : Config} (h : c.legal = true) : c.sentinels.Nodup := by
  obtain ⟨-, hsent, -⟩ := (legal_iff c).1 h
  exact ((legalSentinels_iff c).1 hsent).1

/-- The two sentinels that no fault bit names are decoded from no frame, unless `UNTYPED_FAULT` was chosen so. -/
theorem decodeTc_ne {c : Config} (h : c.legal = true) {r : Reading} (hr : r = c.uninitialized ∨ r = c.junctionOutOfRange)
    (hu : c.untypedFault ≠ r) (f : Frame) : decodeTc c f ≠ r := by
  cases hfault : f.getLsbD 16 with
  | false =>
    have hmem : r ∈ c.sentinels := by rcases hr with rfl | rfl <;> simp [Config.sentinels]
    have hgt := sentinel_gt_of_legal h hmem
    exact ((decodeTc_le_of_no_fault c hfault).trans_lt hgt).ne
  | true =>
    have hother : ∀ x ∈ [c.faultOpen, c.faultShortToGround, c.faultShortToSupply, c.untypedFault], x ≠ r := by
      have hnd := sentinels_nodup_of_legal h
      simp only [Config.sentinels, List.nodup_cons, List.mem_cons] at hnd ⊢
      grind
    rw [decodeTc, hfault, if_pos rfl]
    exact hother _ (faultReading_mem c f)

theorem uninitialized_ne_junctionOutOfRange {c : Config} (h : c.legal = true) :
    c.uninitialized ≠ c.junctionOutOfRange := by
  have hnd := sentinels_nodup_of_legal h
  simp only [Config.sentinels, List.nodup_cons, List.mem_cons] at hnd
  grind

/-- R32 (a), (b): what is read is what some frame decodes to, or `UNINITIALIZED`. -/
theorem readCj_cases {s : State} (h : s.ReadingsInv) (hub ch : Nat) :
    (∃ f, s.readCj hub ch = decodeCj f) ∨ s.readCj hub ch = s.cfg.uninitialized :=
  (Memory.read_cases s.cfg.uninitialized s.cj (entryAddr hub ch)).imp_left (h.2 _)

theorem readTc_cases {s : State} (h : s.ReadingsInv) (hub ch : Nat) :
    (∃ f, s.readTc hub ch = decodeTc s.cfg f) ∨ s.readTc hub ch = s.cfg.uninitialized :=
  (Memory.read_cases s.cfg.uninitialized s.tc (entryAddr hub ch)).imp_left (h.1 _)

/-- Settles O51: no frame decodes to it, and it is not what an unlisted entry reads as. -/
theorem outOfRangeSentinelIsNeverStored : Obligations.OutOfRangeSentinelIsNeverStored := by
  rintro s hub ch ⟨hl, -, -, -, hread, -, -⟩
  have hne := uninitialized_ne_junctionOutOfRange hl
  constructor
  · obtain ⟨f, hf⟩ | hu := readCj_cases hread hub ch
    · rw [hf]
      exact ((decodeCj_le f).trans_lt (sentinel_gt_of_legal hl (by simp [Config.sentinels]))).ne
    · rwa [hu]
  · intro huntyped
    obtain ⟨f, hf⟩ | hu := readTc_cases hread hub ch
    · rw [hf]
      exact decodeTc_ne hl (.inr rfl) huntyped f
    · rwa [hu]

end Sys2Proof.Proofs
end

section
/-! PROOFS. A whole SWEEP (spec/41_bus_capture.md R116, R117, R122): how it runs with and without a reset, what its captures
leave in the registers, on the pins and in the store, and the one response of every accepted word (R35, R74). -/

namespace Sys2Proof.Proofs

open Sys2Proof.Machine Sys2Proof.Laws

/-! ### Running a sweep -/

theorem sweepTicks_sub_one (c : Config) : c.sweepTicks - 1 = 130 * c.captures + 1 := rfl

/-- With no reset the ticks of a sweep are its pseudocode, the host's script and the tick count moving on. -/
theorem exec_sweep_of_no_reset (ow : Bool) {s : State} (hl : s.cfg.legal = true)
    (hr : noResetWithin (s.cfg.sweepTicks - 1) s.host = true) :
    exec (.sweep ow) s = .next { sweepOp ow s with
      host := busyTurnsAfter (s.cfg.sweepTicks - 1) s.host
      tickNo := s.tickNo + (s.cfg.sweepTicks - 1) } := by
  rw [sweepTicks_sub_one] at hr ⊢
  obtain ⟨⟨x, hbody⟩, hin⟩ := seqTicks_sweep ow hl
  obtain ⟨hbefore, hlast⟩ := (noResetWithin_succ _ _).1 hr
  have hrun : runBusy (130 * s.cfg.captures + 1) (acceptSweep ow s) =
      runBusy 1 (((sweepBody ow s).atSeq .finish x 32#6).outside (busyTurnsAfter (130 * s.cfg.captures) s.host)
        (portAfter (130 * s.cfg.captures) s.resp) (s.tickNo + 130 * s.cfg.captures)) :=
    hbody ▸ runBusy_add _ 1 hin hbefore
  have hbusy : ∀ h r n, (((sweepBody ow s).atSeq .finish x 32#6).outside h r n).phase ≠ .idle := fun _ _ _ => nofun
  rw [exec_sweep, sweepTicks_sub_one, hrun, runBusy_succ (hbusy _ _ _), runBusy,
    busyTick_finish _ _ _ _ _ _ hlast, ← sweepOp_eq, busyTurnsAfter_succ]
  rfl

theorem runBusy_of_reset (n : Nat) {s : State} (hp : s.phase ≠ .idle) (ha : s.turn.asserts = true) :
    runBusy (n + 1) s = resetTick s := by
  rw [runBusy_succ hp, busyTick, if_pos ha, runBusy_idle rfl]

/-- A reset in a tick of a sweep is where the sweep ends. -/
theorem exec_sweep_of_reset (ow : Bool) {s : State} {k : Nat} (hl : s.cfg.legal = true)
    (hk : k < s.cfg.sweepTicks - 1) (hr : noResetWithin k s.host = true)
    (ha : ((busyTurnsAfter k s.host).headD .quiet).asserts = true) :
    exec (.sweep ow) s = .next (resetTick ((seqTicks k (acceptSweep ow s)).outside (busyTurnsAfter k s.host)
      (portAfter k s.resp) (s.tickNo + k))) := by
  rw [sweepTicks_sub_one] at hk
  obtain ⟨⟨x, hbody⟩, hin⟩ := seqTicks_sweep ow hl
  obtain ⟨m, hm⟩ := Nat.exists_eq_add_of_lt hk
  have hbusy : (seqTicks k (acceptSweep ow s)).phase ≠ .idle := by
    rcases Nat.lt_or_ge k (130 * s.cfg.captures) with h | h
    · exact (hin k h).1
    · obtain rfl : k = 130 * s.cfg.captures := by omega
      rw [hbody]
      exact nofun
  have hrun : runBusy (k + (m + 1)) (acceptSweep ow s) = runBusy (m + 1) ((seqTicks k (acceptSweep ow s)).outside
      (busyTurnsAfter k s.host) (portAfter k s.resp) (s.tickNo + k)) :=
    runBusy_add k (m + 1) (fun j hj => hin j (by omega)) hr
  rw [exec_sweep, sweepTicks_sub_one, hm, Nat.add_assoc, hrun]
  exact congrArg _ (runBusy_of_reset m hbusy ha)

/-! ### The registers through a sweep's captures -/

theorem comingSample_of_drop {s t : State} {n : Nat} (hlines : t.lines = s.lines.drop n)
    (hno : t.sampleNo = s.sampleNo + n) (k : Nat) : t.comingSample k = s.comingSample (n + k) := by
  simp only [State.comingSample, hlines, hno, List.getElem?_drop, Nat.add_assoc]

/-- `n` captures of a sweep with argument `ow` lie between `s` and `t`: each took 32 samples, and the shift registers hold
the last frame of each line. -/
structure Captured (ow : Bool) (n : Nat) (s t : State) : Prop where
  cfg : t.cfg = s.cfg
  ow : t.ow = ow
  responses : t.responses = s.responses
  shift_length : t.shift.length = s.shift.length
  lines : t.lines = s.lines.drop (32 * n)
  sampleNo : t.sampleNo = s.sampleNo + 32 * n
  lane : 0 < n → ∀ l < s.shift.length, t.lane l = s.captureFrame (n - 1) l
  sck : 0 < n → t.sck = false

namespace Captured
variable {ow : Bool} {n : Nat} {s t : State}

theorem accept (ow : Bool) (s : State) : Captured ow 0 s { s with ow := ow } :=
  ⟨rfl, rfl, rfl, rfl, rfl, rfl, nofun, nofun⟩

theorem driveA (h : Captured ow n s t) (v : BitVec 4) : Captured ow n s (t.driveA v) :=
  ⟨h.cfg, h.ow, h.responses, h.shift_length, h.lines, h.sampleNo, h.lane, h.sck⟩

theorem driveCsN (h : Captured ow n s t) (b : Bool) : Captured ow n s (t.driveCsN b) :=
  ⟨h.cfg, h.ow, h.responses, h.shift_length, h.lines, h.sampleNo, h.lane, h.sck⟩

theorem updateLines (h : Captured ow n s t) (a : Nat) (b : Bool) : Captured ow n s (updateLines a b t) := by
  rw [updateLines_frame]
  exact ⟨h.cfg, h.ow, h.responses, h.shift_length, h.lines, h.sampleNo, h.lane, h.sck⟩

theorem captureFrame (h : Captured ow n s t) (m l : Nat) : t.captureFrame m l = s.captureFrame (n + m) l := by
  have hs : ∀ k, t.comingSample (32 * m + k) = s.comingSample (32 * (n + m) + k) := fun k => by
    rw [comingSample_of_drop h.lines h.sampleNo]; congr 1; omega
  simp only [State.captureFrame, hs]

theorem capture32 (h : Captured ow n s t) : Captured ow (n + 1) s (capture32 t) := by
  obtain ⟨hcfg, how, -, -, -, -, -, -, -, -, hresp, -, -, -, hlines, hno⟩ := bitCycles_frame 32 t
  refine ⟨hcfg.trans h.cfg, how.trans h.ow, hresp.trans h.responses,
    (bitCycles_shift_length 32 t).trans h.shift_length, ?_, ?_, ?_, ?_⟩
  · rw [Machine.capture32, hlines, h.lines, List.drop_drop, Nat.mul_succ]
  · rw [Machine.capture32, hno, h.sampleNo, Nat.add_assoc, Nat.mul_succ]
  · intro _ l hl
    rw [capture32_lane t l (h.shift_length ▸ hl), h.captureFrame]; rfl
  · intro _
    rw [Machine.capture32, bitCycles_succ]; rfl

theorem sweepAddress (h : Captured ow n s t) (a : Nat) : Captured ow (n + 1) s (sweepAddress ow t a) :=
  ((h.driveA (BitVec.ofNat 4 a)).capture32).updateLines a ow

theorem addresses (h : Captured ow 0 s t) (n : Nat) :
    Captured ow n s ((List.range n).foldl (Machine.sweepAddress ow) t) := by
  induction n with
  | zero => exact h
  | succ n ih =>
    rw [List.range_succ, List.foldl_append]
    exact ih.sweepAddress n

end Captured

theorem sweepBody_of_multiplexed (ow : Bool) {s : State} (hm : s.cfg.topology = .addressMultiplexed) :
    sweepBody ow s = (List.range s.cfg.addressCount).foldl (sweepAddress ow) { s with ow := ow } := by
  simp only [sweepBody, hm]

theorem sweepBody_of_chipSelect (ow : Bool) {s : State} (hm : s.cfg.topology = .chipSelectPerChannel) :
    sweepBody ow s = updateLines 0 ow ((capture32 (State.driveCsN false { s with ow := ow })).driveCsN true) := by
  simp only [sweepBody, hm]

theorem sweepBody_captured (ow : Bool) (s : State) : Captured ow s.cfg.captures s (sweepBody ow s) := by
  have h0 := Captured.accept ow s
  cases hm : s.cfg.topology with
  | addressMultiplexed =>
    rw [sweepBody_of_multiplexed ow hm, captures_of_multiplexed hm]
    exact h0.addresses _
  | chipSelectPerChannel =>
    rw [sweepBody_of_chipSelect ow hm, captures_of_chipSelect hm]
    exact (((h0.driveCsN false).capture32).driveCsN true).updateLines 0 ow

/-! ### The pins after a sweep -/

theorem sweepAddress_pins (ow : Bool) (s : State) (a : Nat) :
    (sweepAddress ow s a).a = BitVec.ofNat 4 a ∧ (sweepAddress ow s a).csN = s.csN := by
  rw [sweepAddress, updateLines_frame]
  obtain ⟨-, -, -, -, -, -, -, ha, hcs, -⟩ := bitCycles_frame 32 (addrDrive (BitVec.ofNat 4 a) s)
  exact ⟨ha, hcs⟩

theorem foldl_sweepAddress_csN (ow : Bool) (ls : List Nat) (s : State) :
    (ls.foldl (sweepAddress ow) s).csN = s.csN := by
  induction ls generalizing s with
  | nil => rfl
  | cons l ls ih => rw [List.foldl_cons, ih, (sweepAddress_pins ow s l).2]

/-- Multiplexed: the bus stays on the last address. -/
theorem sweepBody_pins_of_multiplexed (ow : Bool) {s : State} (hl : s.cfg.legal = true)
    (hm : s.cfg.topology = .addressMultiplexed) :
    (sweepBody ow s).a.toNat = s.cfg.addressCount - 1 ∧ (sweepBody ow s).csN = s.csN := by
  have hpos := captures_pos hl
  have hcap := captures_le hl
  rw [captures_of_multiplexed hm] at hpos hcap
  rw [sweepBody_of_multiplexed ow hm, foldl_sweepAddress_csN]
  refine ⟨?_, rfl⟩
  obtain ⟨n, hn⟩ := Nat.exists_eq_add_of_le' hpos
  rw [hn, List.range_succ, List.foldl_append, List.foldl_cons, List.foldl_nil, (sweepAddress_pins _ _ _).1,
    BitVec.toNat_ofNat]
  omega

/-- Chip select: the chip-select is high again, and nothing drove the bus. -/
theorem sweepBody_pins_of_chipSelect (ow : Bool) {s : State} (hm : s.cfg.topology = .chipSelectPerChannel) :
    (sweepBody ow s).csN = true ∧ (sweepBody ow s).a = s.a := by
  rw [sweepBody_of_chipSelect ow hm, updateLines_frame]
  obtain ⟨-, -, -, -, -, -, -, ha, -⟩ := bitCycles_frame 32 (State.driveCsN false { s with ow := ow })
  exact ⟨rfl, by rw [State.driveCsN_a, capture32, ha]; rfl⟩

/-- Settles O40: the registers after the last capture, which FINISH leaves but for the counters it clears. -/
theorem sweepLeavesPinsAndRegisters : Obligations.SweepLeavesPinsAndRegisters := by
  intro s ow hl hshift hr
  have h := sweepBody_captured ow s
  have hpos := captures_pos hl
  rw [exec_sweep_of_no_reset ow hl hr, sweepOp_eq]
  exact ⟨_, rfl, h.ow, rfl, rfl, rfl, h.sck hpos, sweepBody_pins_of_multiplexed ow hl,
    sweepBody_pins_of_chipSelect ow, h.shift_length.trans hshift, fun l hlt => h.lane hpos l (hshift ▸ hlt), h.cfg,
    h.lines, h.sampleNo⟩

/-! ### The store through a sweep's captures -/

/-- R56: line `l` delivers entry `(h, c)` in capture `n` exactly if that capture and that line are the entry's. -/
theorem entryOfLine_eq_iff {cfg : Config} {n l h c : Nat} (hn : n < cfg.captures) :
    l < cfg.nLines ∧ entryOfLine cfg n l = (h, c) ↔
      h < cfg.nHubs ∧ c < cfg.nCh ∧ cfg.captureOf c = n ∧ cfg.lineOf h c = l := by
  simp only [Config.captures] at hn
  simp only [Config.nLines, entryOfLine, Config.nHubs, Config.nCh, Config.captureOf, Config.lineOf]
  cases hm : cfg.topology with
  | addressMultiplexed => simp only [hm, Prod.mk.injEq] at hn ⊢; omega
  | chipSelectPerChannel => simp only [hm, Prod.mk.injEq] at hn ⊢; omega

/-- The UPDATEs of capture `n`: its entries by the frames in the registers, every other address as it was. -/
theorem updateLines_read {s : State} (hl : s.cfg.legal = true) {n : Nat} (hn : n < s.cfg.captures) (ow : Bool)
    (ht : s.tc.wf s.cfg.uninitialized) (hj : s.cj.wf s.cfg.uninitialized) (h : Nat) {c : Nat} (hc : c < 16) :
    (h < s.cfg.nHubs ∧ c < s.cfg.nCh ∧ s.cfg.captureOf c = n →
      (updateLines n ow s).readCj h c = decodeCj (s.lane (s.cfg.lineOf h c)) ∧
      (updateLines n ow s).readTc h c =
        retainedTc s.cfg ow (s.readTc h c) (decodeTc s.cfg (s.lane (s.cfg.lineOf h c)))) ∧
    (¬(h < s.cfg.nHubs ∧ c < s.cfg.nCh ∧ s.cfg.captureOf c = n) →
      (updateLines n ow s).readCj h c = s.readCj h c ∧ (updateLines n ow s).readTc h c = s.readTc h c) := by
  obtain ⟨hfill, hkeep⟩ := foldl_updateLine_read n ow (List.range s.cfg.nLines) ht hj
    (hn.trans_le (captures_le hl)) (fun l hlt => (List.mem_range.1 hlt).trans_le (nLines_le hl))
    List.nodup_range (h := h) hc
  constructor
  · rintro ⟨hhub, hch, hcapture⟩
    obtain ⟨hline, hentry⟩ := (entryOfLine_eq_iff hn).2 ⟨hhub, hch, hcapture, rfl⟩
    exact hfill _ (List.mem_range.2 hline) hentry
  · intro hno
    refine hkeep fun l hlt hentry => hno ?_
    obtain ⟨hhub, hch, hcapture, -⟩ := (entryOfLine_eq_iff hn).1 ⟨List.mem_range.1 hlt, hentry⟩
    exact ⟨hhub, hch, hcapture⟩

/-- `n` captures of a sweep lie between `s` and `t`: the entries they deliver are updated, every other address is as it
was, and the store is canonical. -/
structure Filled (ow : Bool) (n : Nat) (s t : State) : Prop where
  wf_tc : t.tc.wf s.cfg.uninitialized
  wf_cj : t.cj.wf s.cfg.uninitialized
  filled : ∀ h c, h < s.cfg.nHubs → c < s.cfg.nCh → s.cfg.captureOf c < n →
    t.readCj h c = decodeCj (s.captureFrame (s.cfg.captureOf c) (s.cfg.lineOf h c)) ∧
    t.readTc h c = retainedTc s.cfg ow (s.readTc h c)
      (decodeTc s.cfg (s.captureFrame (s.cfg.captureOf c) (s.cfg.lineOf h c)))
  kept : ∀ h c, c < 16 → ¬(h < s.cfg.nHubs ∧ c < s.cfg.nCh ∧ s.cfg.captureOf c < n) →
    t.readCj h c = s.readCj h c ∧ t.readTc h c = s.readTc h c

namespace Filled
variable {ow : Bool} {n : Nat} {s t u : State}

theorem start (ht : s.tc.wf s.cfg.uninitialized) (hj : s.cj.wf s.cfg.uninitialized) :
    Filled ow 0 s { s with ow := ow } :=
  ⟨ht, hj, fun _ _ _ _ h => absurd h (Nat.not_lt_zero _), fun _ _ _ _ => ⟨rfl, rfl⟩⟩

/-- Only the store matters. -/
theorem of_store (h : Filled ow n s t) (hcfg : u.cfg = t.cfg) (ht : u.tc = t.tc) (hj : u.cj = t.cj) :
    Filled ow n s u := by
  have hTc : ∀ h c, u.readTc h c = t.readTc h c := fun _ _ => by rw [State.readTc, State.readTc, hcfg, ht]
  have hCj : ∀ h c, u.readCj h c = t.readCj h c := fun _ _ => by rw [State.readCj, State.readCj, hcfg, hj]
  refine ⟨ht ▸ h.wf_tc, hj ▸ h.wf_cj, ?_, ?_⟩
  · simpa only [hTc, hCj] using h.filled
  · simpa only [hTc, hCj] using h.kept

/-- The UPDATEs of the capture just taken. -/
theorem updateLines (hl : s.cfg.legal = true) (hshift : s.shift.length = s.cfg.nLines) (hn : n < s.cfg.captures)
    (hc : Captured ow (n + 1) s t) (h : Filled ow n s t) : Filled ow (n + 1) s (updateLines n ow t) := by
  have hcfg := hc.cfg
  have ht : t.tc.wf t.cfg.uninitialized := by rw [hcfg]; exact h.wf_tc
  have hj : t.cj.wf t.cfg.uninitialized := by rw [hcfg]; exact h.wf_cj
  have hwf := updateLines_wf n ow ht hj
  have hread := @updateLines_read t (by rwa [hcfg]) n (by rwa [hcfg]) ow ht hj
  simp only [hcfg] at hwf hread
  refine ⟨hwf.1, hwf.2, fun x y hx hy hlt => ?_, fun x y hy hno => ?_⟩
  · have hy16 : y < 16 := hy.trans_le (nCh_le hl)
    obtain ⟨hnew, hold⟩ := hread x hy16
    rcases Nat.lt_succ_iff_lt_or_eq.1 hlt with hlt | rfl
    · obtain ⟨ecj, etc⟩ := hold (by omega)
      rw [ecj, etc]
      exact h.filled x y hx hy hlt
    · obtain ⟨ecj, etc⟩ := hnew ⟨hx, hy, rfl⟩
      have hline : s.cfg.lineOf x y < s.shift.length := hshift ▸ ((entryOfLine_eq_iff hn).2 ⟨hx, hy, rfl, rfl⟩).1
      rw [ecj, etc, hc.lane (Nat.succ_pos _) _ hline, (h.kept x y hy16 (by omega)).2]
      exact ⟨rfl, rfl⟩
  · obtain ⟨ecj, etc⟩ := (hread x hy).2 (by omega)
    rw [ecj, etc]
    exact h.kept x y hy (by omega)

theorem sweepAddress (hl : s.cfg.legal = true) (hshift : s.shift.length = s.cfg.nLines) (hn : n < s.cfg.captures)
    (hc : Captured ow n s t) (h : Filled ow n s t) : Filled ow (n + 1) s (sweepAddress ow t n) := by
  obtain ⟨hcfg, -, -, -, -, htc, hcj, -⟩ := bitCycles_frame 32 (addrDrive (BitVec.ofNat 4 n) t)
  exact Filled.updateLines hl hshift hn (hc.driveA _).capture32 (h.of_store hcfg htc hcj)

theorem addresses (hl : s.cfg.legal = true) (hshift : s.shift.length = s.cfg.nLines) (hc : Captured ow 0 s t)
    (h : Filled ow 0 s t) (n : Nat) (hn : n ≤ s.cfg.captures) :
    Filled ow n s ((List.range n).foldl (Machine.sweepAddress ow) t) := by
  induction n with
  | zero => exact h
  | succ n ih =>
    rw [List.range_succ, List.foldl_append]
    exact (ih (by omega)).sweepAddress hl hshift hn (hc.addresses n)

end Filled

theorem sweepBody_filled (ow : Bool) {s : State} (hl : s.cfg.legal = true) (hshift : s.shift.length = s.cfg.nLines)
    (ht : s.tc.wf s.cfg.uninitialized) (hj : s.cj.wf s.cfg.uninitialized) :
    Filled ow s.cfg.captures s (sweepBody ow s) := by
  have hc := Captured.accept ow s
  have h := Filled.start ht hj (ow := ow)
  cases hm : s.cfg.topology with
  | addressMultiplexed =>
    rw [sweepBody_of_multiplexed ow hm, ← captures_of_multiplexed hm]
    exact h.addresses hl hshift hc _ le_rfl
  | chipSelectPerChannel =>
    have hn : 0 < s.cfg.captures := captures_pos hl
    obtain ⟨hcfg, -, -, -, -, htc, hcj, -⟩ := bitCycles_frame 32 (State.driveCsN false { s with ow := ow })
    rw [sweepBody_of_chipSelect ow hm, captures_of_chipSelect hm]
    exact Filled.updateLines hl hshift hn ((hc.driveCsN false).capture32.driveCsN true) (h.of_store hcfg htc hcj)

theorem captureOf_lt {cfg : Config} {c : Nat} (hc : c < cfg.nCh) : cfg.captureOf c < cfg.captures := by
  cases hm : cfg.topology <;> simp_all [Config.captureOf, Config.captures, Config.nCh]

/-- A retained thermocouple Reading is `UNINITIALIZED` only if the new one is: a stored `UNINITIALIZED` gives way. -/
theorem retainedTc_ne_uninitialized {c : Config} {new : Reading} (h : new ≠ c.uninitialized) (ow : Bool) (old : Reading) :
    retainedTc c ow old new ≠ c.uninitialized := by
  unfold retainedTc
  split
  · exact h
  · next hno =>
    simp only [replacesTc_iff, not_or] at hno
    obtain ⟨-, -, hold⟩ := hno
    exact hold

/-- Settles O43: every entry is some capture's. -/
theorem afterASweepNothingIsUninitialized : Obligations.AfterASweepNothingIsUninitialized := by
  rintro s ow ⟨hl, hshift, -, ⟨ht, hj, -, -⟩, -, -, -⟩ hr
  refine ⟨_, exec_sweep_of_no_reset ow hl hr, fun h c hh hc => ?_⟩
  obtain ⟨ecj, etc⟩ := (sweepBody_filled ow hl hshift ht hj).filled h c hh hc (captureOf_lt hc)
  rw [sweepOp_eq]
  constructor
  · exact (congrArg s.cfg.isSentinel ecj).trans (decodeCj_not_sentinel hl _)
  · intro hu
    exact etc.trans_ne (retainedTc_ne_uninitialized (decodeTc_ne hl (.inl rfl) hu _) ow _)

/-! ### The store without a sweep -/

/-- Settles O23: a reset in the sweep's ticks ends it as a reset tick; no other step touches the store. -/
theorem emptyStoreStaysEmptyWithoutASweep : Obligations.EmptyStoreStaysEmptyWithoutASweep := by
  intro s t htc hcj hp ht hcase
  have hl : s.cfg.legal = true := (edge_cases ht).1
  cases ha : s.turn.asserts with
  | true =>
    cases (edge_of_reset hl ha).symm.trans ht
    exact ⟨rfl, rfl, rfl⟩
  | false =>
    obtain rfl | rfl | ⟨w, i, hc, hd, hrun⟩ := acceptCommand_cases ((edge_of_idle hl ha hp).symm.trans ht)
    · exact ⟨htc, hcj, hp⟩
    · exact ⟨htc, hcj, hp⟩
    · obtain ⟨ow, rfl⟩ | hi := sweep_or_not i
      · obtain hreset | hno | ⟨k, hk, hbefore, hreset⟩ := hcase
        · exact absurd (ha.symm.trans hreset) nofun
        · exact absurd hd (hno w ow hc)
        · cases (exec_sweep_of_reset ow (s := s.beginTick) hl hk hbefore hreset).symm.trans hrun
          exact ⟨rfl, rfl, rfl⟩
      · obtain ⟨r, hr⟩ := exec_of_not_sweep hi s.beginTick
        cases hr.symm.trans hrun
        exact ⟨htc, hcj, hp⟩

/-! ### One response for every accepted word -/

theorem exec_sweep_answers (ow : Bool) {s : State} (hl : s.cfg.legal = true)
    (hr : noResetWithin (s.cfg.sweepTicks - 1) s.host = true) :
    ∃ t, exec (.sweep ow) s = .next t ∧ t.cfg = s.cfg ∧ t.resp = some (.count t.validCount.toNat) ∧
      t.responses = s.responses ++ [.count t.validCount.toNat] := by
  have h := sweepBody_captured ow s
  refine ⟨_, exec_sweep_of_no_reset ow hl hr, ?_⟩
  rw [sweepOp_eq]
  exact ⟨h.cfg, rfl, congrArg (· ++ _) h.responses⟩

/-- The kinds of answer of an accepted word: a refusal, the status register's count, or a Reading. -/
theorem step_answers {s : State} {w : Word} (hl : s.cfg.legal = true) (hp : s.phase = .idle)
    (ha : s.turn.asserts = false) (hc : s.turn.command = some w)
    (hr : noResetWithin (s.cfg.sweepTicks - 1) s.host.tail = true) :
    ∃ t r, step s = .next t ∧ t.cfg = s.cfg ∧ t.resp = some r ∧ t.responses = s.responses ++ [r] ∧
      ((refusedWord s.cfg w ∧ (∀ ow, decode w ≠ .ok (.sweep ow)) ∧ r = .refused) ∨
       (¬refusedWord s.cfg w ∧ (∃ ow, decode w = .ok (.sweep ow)) ∧ r = .count t.validCount.toNat) ∨
       (¬refusedWord s.cfg w ∧ (∀ ow, decode w ≠ .ok (.sweep ow)) ∧ ∃ x, r = .reading x)) := by
  have haccept : step s = acceptCommand exec s := edge_of_idle hl ha hp
  cases hd : decode w with
  | reject e =>
    rw [haccept, acceptCommand_of_reject hc hd]
    exact ⟨_, _, rfl, rfl, rfl, rfl, .inl ⟨refusedWord_of_reject hd _, nofun, rfl⟩⟩
  | ok i =>
    rw [haccept, acceptCommand_of_ok hc hd, refusedWord_iff_lackedBy hd]
    obtain ⟨ow, rfl⟩ | hi := sweep_or_not i
    · obtain ⟨t, ht, hcfg, hresp, hresps⟩ := exec_sweep_answers ow (s := s.beginTick) hl hr
      exact ⟨t, _, ht, hcfg, hresp, hresps, .inr (.inl ⟨id, ⟨ow, rfl⟩, rfl⟩)⟩
    · have hno : ∀ ow, Decoded.ok i ≠ .ok (.sweep ow) := fun ow h => hi ow (Decoded.ok.inj h)
      by_cases hlacks : LackedBy s.cfg i
      · exact ⟨_, _, exec_of_lacked (s := s.beginTick) hlacks, rfl, rfl, rfl, .inl ⟨hlacks, hno, rfl⟩⟩
      · obtain ⟨x, hx⟩ := exec_of_served (s := s.beginTick) hi hlacks
        exact ⟨_, _, hx, rfl, rfl, rfl, .inr (.inr ⟨hlacks, hno, x, rfl⟩)⟩

/-- Settles O44: the port's signals are read off the kind of answer. -/
theorem exactlyOneResponsePerCommand : Obligations.ExactlyOneResponsePerCommand := by
  intro s w hl hp ha hc hr
  obtain ⟨t, r, ht, hcfg, hresp, hresps, hkind⟩ := step_answers hl hp ha hc hr
  refine ⟨t, r, ht, hresp, hresps, ?_⟩
  simp only [State.respValid, State.respOk, State.respKindIsCount, State.respValue, hresp]
  obtain ⟨href, hno, rfl⟩ | ⟨href, ⟨ow, hd⟩, rfl⟩ | ⟨href, hno, x, rfl⟩ := hkind
  · simp [href, hno]
  · simp [href, hd]
  · simp [href, hno, hcfg]

end Sys2Proof.Proofs
end

section
/-! PROOFS. The pin history of a SWEEP, event by event (spec/41_bus_capture.md R60, R110, R120). -/

namespace Sys2Proof.Proofs

open Sys2Proof.Machine

theorem capture32_sck (s : State) : (capture32 s).sck = false := by
  rw [capture32, bitCycles_succ]
  rfl

theorem capture32_csN (s : State) : (capture32 s).csN = s.csN := by
  obtain ⟨-, -, -, -, -, -, -, -, hcs, -⟩ := bitCycles_frame 32 s
  exact hcs

/-- The 32 bit cycles of a capture are its pulses. -/
theorem capture32_pinHistory {s : State} (h : s.sck = false) :
    (capture32 s).pinHistory = s.pinHistory ++ capturePulses := by
  rw [capture32, bitCycles_eq 32 h]
  rfl

theorem updateLines_sck (a : Nat) (ow : Bool) (s : State) : (updateLines a ow s).sck = s.sck := by
  rw [updateLines_frame]

theorem updateLines_pinHistory (a : Nat) (ow : Bool) (s : State) :
    (updateLines a ow s).pinHistory = s.pinHistory := by
  rw [updateLines_frame]

theorem sweepAddress_sck (ow : Bool) (s : State) (a : Nat) : (sweepAddress ow s a).sck = false := by
  rw [sweepAddress, updateLines_sck, capture32_sck]

/-- One address: its drive, if that changes the bus, then the pulses of its capture. -/
theorem sweepAddress_pinHistory (ow : Bool) {s : State} (h : s.sck = false) (a : Nat) :
    (sweepAddress ow s a).pinHistory =
      s.pinHistory ++ (if s.a = BitVec.ofNat 4 a then [] else [.address (BitVec.ofNat 4 a)]) ++ capturePulses := by
  rw [sweepAddress, updateLines_pinHistory,
    capture32_pinHistory (s := addrDrive (BitVec.ofNat 4 a) s) h, addrDrive, State.driveA_pinHistory]

theorem foldl_sweepAddress_sck (ow : Bool) (n : Nat) {s : State} (h : s.sck = false) :
    ((List.range n).foldl (sweepAddress ow) s).sck = false := by
  cases n with
  | zero => exact h
  | succ n =>
    rw [List.range_succ, List.foldl_append]
    exact sweepAddress_sck ow _ n

/-- The bus keeps the address it was last driven to. -/
theorem foldl_sweepAddress_a (ow : Bool) (n : Nat) (s : State) :
    ((List.range n).foldl (sweepAddress ow) s).a = if n = 0 then s.a else BitVec.ofNat 4 (n - 1) := by
  cases n with
  | zero => rfl
  | succ n =>
    rw [List.range_succ, List.foldl_append]
    exact (sweepAddress_pins ow _ n).1

/-- The first `n` addresses of a sweep: address `n` finds the clock low and the bus on the address before it. -/
theorem foldl_sweepAddress_pinHistory (ow : Bool) (n : Nat) {s : State} (h : s.sck = false) :
    ((List.range n).foldl (sweepAddress ow) s).pinHistory = s.pinHistory ++ multiplexedPulses s.a n := by
  induction n with
  | zero => exact (List.append_nil _).symm
  | succ n ih =>
    rw [List.range_succ, List.foldl_append, List.foldl_cons, List.foldl_nil,
      sweepAddress_pinHistory ow (foldl_sweepAddress_sck ow n h), ih, foldl_sweepAddress_a, multiplexedPulses]
    simp only [List.append_assoc]

theorem sweepBody_pinHistory_of_multiplexed (ow : Bool) {s : State} (hm : s.cfg.topology = .addressMultiplexed)
    (h : s.sck = false) :
    (sweepBody ow s).pinHistory = s.pinHistory ++ multiplexedPulses s.a s.cfg.addressCount := by
  rw [sweepBody_of_multiplexed ow hm]
  exact foldl_sweepAddress_pinHistory ow _ (s := { s with ow := ow }) h

/-- The chip-select moves twice, since it was high before and the capture keeps it low. -/
theorem sweepBody_pinHistory_of_chipSelect (ow : Bool) {s : State}
    (hm : s.cfg.topology = .chipSelectPerChannel) (h : s.sck = false) (hcs : s.csN = true) :
    (sweepBody ow s).pinHistory = s.pinHistory ++ [.csN false] ++ capturePulses ++ [.csN true] := by
  have hfall : (State.driveCsN false { s with ow := ow }).pinHistory = s.pinHistory ++ [.csN false] := by
    simp [hcs]
  rw [sweepBody_of_chipSelect ow hm, updateLines_pinHistory, State.driveCsN_pinHistory, capture32_csN,
    capture32_pinHistory (s := State.driveCsN false { s with ow := ow }) h, hfall]
  rfl

/-- Settles O41: FINISH moves no pin, so the history is that of the sweep's body. -/
theorem sweepPinHistoryIsInOrder : Obligations.SweepPinHistoryIsInOrder := by
  intro s ow hl hsck hr
  rw [exec_sweep_of_no_reset ow hl hr, sweepOp_eq]
  exact ⟨_, rfl, fun hm => sweepBody_pinHistory_of_multiplexed ow hm hsck,
    fun hm hcs => sweepBody_pinHistory_of_chipSelect ow hm hsck hcs⟩

end Sys2Proof.Proofs
end

section
/-! PROOFS. The command word, both ways (spec/30_encoding.md R70 to R74): the fields of a packed word, what the masks of
the opcode map say of the fields, and what becomes of a word that the block refuses. -/

namespace Sys2Proof.Proofs

open Sys2Proof.Machine Sys2Proof.Laws

/-! ### A word is its fields -/

theorem opField_lt (w : Word) : opField w < 16 := (w.extractLsb' 12 4).isLt

theorem hubField_lt (w : Word) : hubField w < 16 := (w.extractLsb' 8 4).isLt

theorem chField_lt (w : Word) : chField w < 16 := (w.extractLsb' 4 4).isLt

theorem word_ext_fields {w v : Word} (hop : opField w = opField v) (hhub : hubField w = hubField v)
    (hch : chField w = chField v) (hrsv : rsvField w = rsvField v) (how : owField w = owField v) : w = v := by
  have hlow : w.toNat % 2 = 0 ↔ v.toNat % 2 = 0 := by
    rw [← owField_eq_false_iff, ← owField_eq_false_iff, how]
  simp only [opField_eq, hubField_eq, chField_eq, rsvField_eq] at hop hhub hch hrsv
  apply BitVec.eq_of_toNat_eq
  omega

theorem toNat_packWord {op hub ch : Nat} (hop : op < 16) (hhub : hub < 16) (hch : ch < 16) (ow : Bool) :
    (packWord op hub ch ow).toNat = op * 4096 + hub * 256 + ch * 16 + ow.toNat := by
  have happend : ∀ {m n} (x : BitVec m) (y : BitVec n), (x ++ y).toNat = x.toNat * 2 ^ n + y.toNat := by
    intro m n x y
    rw [BitVec.toNat_append, ← Nat.shiftLeft_add_eq_or_of_lt y.isLt, Nat.shiftLeft_eq]
  simp only [packWord, happend, BitVec.toNat_ofNat, BitVec.toNat_ofBool]
  omega

theorem owField_packWord (op hub ch : Nat) (ow : Bool) : owField (packWord op hub ch ow) = ow := by
  rw [owField, packWord, BitVec.getLsbD_append]
  cases ow <;> rfl

theorem fields_packWord {op hub ch : Nat} (hop : op < 16) (hhub : hub < 16) (hch : ch < 16) (ow : Bool) :
    rsvField (packWord op hub ch ow) = 0 ∧ opField (packWord op hub ch ow) = op ∧
    hubField (packWord op hub ch ow) = hub ∧ chField (packWord op hub ch ow) = ch ∧
    owField (packWord op hub ch ow) = ow := by
  have := ow.toNat_lt
  rw [rsvField_eq, opField_eq, hubField_eq, chField_eq, toNat_packWord hop hhub hch]
  exact ⟨by omega, by omega, by omega, by omega, owField_packWord op hub ch ow⟩

theorem packWord_ownFields {w : Word} (h : rsvField w = 0) :
    packWord (opField w) (hubField w) (chField w) (owField w) = w := by
  obtain ⟨hrsv, hop, hhub, hch, how⟩ := fields_packWord (opField_lt w) (hubField_lt w) (chField_lt w) (owField w)
  exact word_ext_fields hop hhub hch (hrsv.trans h.symm) how

/-! ### Decode and encode -/

/-- The word of a well-formed command has the command's fields, and no bit beside them. -/
theorem fields_encode {i : Instr} (h : i.WellFormed) : rsvField (encode i) = 0 ∧ HasFields (encode i) i := by
  cases i with
  | sweep ow => exact fields_packWord (by decide) (by decide) (by decide) ow
  | rdtcC hub ch => exact fields_packWord (by decide) h.1 h.2 false
  | rdtcF hub ch => exact fields_packWord (by decide) h.1 h.2 false
  | rdcjC hub ch => exact fields_packWord (by decide) h.1 h.2 false
  | rdcjF hub ch => exact fields_packWord (by decide) h.1 h.2 false
  | avgcjC hub => exact fields_packWord (by decide) h (by decide) false
  | avgcjF hub => exact fields_packWord (by decide) h (by decide) false

/-- Settles O2: a word with the command's fields decodes to it. -/
theorem decodeOfEncodeIsTheCommand : Obligations.DecodeOfEncodeIsTheCommand :=
  fun _ h => decode_eq_ok_iff.2 (fields_encode h)

theorem wellFormed_of_hasFields {w : Word} {i : Instr} (h : HasFields w i) : i.WellFormed := by
  cases i
  case sweep => trivial
  case rdtcC | rdtcF | rdcjC | rdcjF =>
    obtain ⟨-, rfl, rfl, -⟩ := h
    exact ⟨hubField_lt w, chField_lt w⟩
  case avgcjC | avgcjF =>
    obtain ⟨-, rfl, -⟩ := h
    exact hubField_lt w

/-- Settles O3: the word is packed again from its own fields. -/
theorem encodeOfDecodeIsTheWord : Obligations.EncodeOfDecodeIsTheWord := by
  intro w i h
  obtain ⟨hrsv, hf⟩ := decode_eq_ok_iff.1 h
  refine ⟨wellFormed_of_hasFields hf, ?_⟩
  rw [← packWord_ownFields hrsv]
  cases i <;> obtain ⟨hop, hhub, hch, how⟩ := hf <;> simp [encode, *]

/-! ### The opcode map -/

/-- Where a mask keeps a whole field, a word that matches has the field of the value it is matched with (R71). -/
theorem fields_of_masked {w m v : Word} (h : w &&& m = v) :
    (opField m = 15 → opField w = opField v) ∧ (hubField m = 15 → hubField w = hubField v) ∧
    (chField m = 15 → chField w = chField v) ∧ (rsvField m = 7 → rsvField w = rsvField v) ∧
    (owField m = true → owField w = owField v) := by
  have keep : ∀ {start n}, (m.extractLsb' start n).toNat = 2 ^ n - 1 →
      (w.extractLsb' start n).toNat = (v.extractLsb' start n).toNat := by
    intro start n hm
    rw [← h, BitVec.extractLsb'_and, BitVec.toNat_and, hm, Nat.and_two_pow_sub_one_eq_mod,
      Nat.mod_eq_of_lt (BitVec.isLt _)]
  refine ⟨keep, keep, keep, keep, fun hm => ?_⟩
  rw [owField] at hm
  rw [← h, owField, owField, BitVec.getLsbD_and, hm, Bool.and_true]

theorem row_covers_encode (i : Instr) : i.row ∈ opcodeTable ∧ encode i &&& i.row.mask = i.row.value := by
  have hstatement : OpcodeRow.Statement i := by
    cases i with
    | sweep ow => exact OpcodeRow.sweep ow
    | rdtcC hub ch => exact OpcodeRow.rdtcC hub ch
    | rdtcF hub ch => exact OpcodeRow.rdtcF hub ch
    | rdcjC hub ch => exact OpcodeRow.rdcjC hub ch
    | rdcjF hub ch => exact OpcodeRow.rdcjF hub ch
    | avgcjC hub => exact OpcodeRow.avgcjC hub
    | avgcjF hub => exact OpcodeRow.avgcjF hub
  exact hstatement.imp_right beq_iff_eq.1

theorem decode_covered {w : Word} {i : Instr} (h : decode w = .ok i) :
    i.row ∈ opcodeTable ∧ w &&& i.row.mask = i.row.value := by
  obtain ⟨-, rfl⟩ := encodeOfDecodeIsTheWord w i h
  exact row_covers_encode i

/-- A word that a row covers has the fields of that row's command. -/
theorem decode_of_covered {w : Word} {r : OpcodeRow} (hr : r ∈ opcodeTable) (h : w &&& r.mask = r.value) :
    ∃ i, decode w = .ok i ∧ i.row = r := by
  obtain ⟨hop, hhub, hch, hrsv, how⟩ := fields_of_masked h
  simp only [opcodeTable, List.mem_cons, List.not_mem_nil, or_false] at hr
  obtain rfl | rfl | rfl | rfl | rfl | rfl | rfl := hr
  · exact ⟨.sweep _, decode_of_hasFields (hrsv rfl) ⟨hop rfl, hhub rfl, hch rfl, rfl⟩, rfl⟩
  · exact ⟨.rdtcC _ _, decode_of_hasFields (hrsv rfl) ⟨hop rfl, rfl, rfl, how rfl⟩, rfl⟩
  · exact ⟨.rdtcF _ _, decode_of_hasFields (hrsv rfl) ⟨hop rfl, rfl, rfl, how rfl⟩, rfl⟩
  · exact ⟨.rdcjC _ _, decode_of_hasFields (hrsv rfl) ⟨hop rfl, rfl, rfl, how rfl⟩, rfl⟩
  · exact ⟨.rdcjF _ _, decode_of_hasFields (hrsv rfl) ⟨hop rfl, rfl, rfl, how rfl⟩, rfl⟩
  · exact ⟨.avgcjC _, decode_of_hasFields (hrsv rfl) ⟨hop rfl, rfl, hch rfl, how rfl⟩, rfl⟩
  · exact ⟨.avgcjF _, decode_of_hasFields (hrsv rfl) ⟨hop rfl, rfl, hch rfl, how rfl⟩, rfl⟩

/-- Settles O4: a covered word decodes by its fields, and a decoded one is the word of its command. -/
theorem wordSpellsCommandExactlyByMask : Obligations.WordSpellsCommandExactlyByMask := by
  intro w
  have hrow : ∀ r ∈ opcodeTable, (w &&& r.mask = r.value ↔ ∃ i, decode w = .ok i ∧ i.row = r) := by
    refine fun r hr => ⟨decode_of_covered hr, ?_⟩
    rintro ⟨i, hd, rfl⟩
    exact (decode_covered hd).2
  refine ⟨hrow, fun hnone => ?_, ?_⟩
  · cases hd : decode w with
    | ok i =>
      obtain ⟨hmem, hcov⟩ := decode_covered hd
      exact absurd hcov (hnone _ hmem)
    | reject e => exact ⟨e, rfl⟩
  · rintro ⟨e, hd⟩ r hr hcov
    obtain ⟨i, hi, -⟩ := decode_of_covered hr hcov
    rw [hd] at hi
    cases hi

/-- Settles O1: the decoder evaluates each of the fifteen words. -/
theorem wordsOfTheOpcodeMapDecode : Obligations.WordsOfTheOpcodeMapDecode := by
  unfold Obligations.WordsOfTheOpcodeMapDecode
  decide

/-! ### A refused word -/

/-- An idle block that finds a refused word refuses it, whichever way an accepted command is run, as long as a command
that names an entry the instance lacks is refused. -/
theorem acceptCommand_of_refused {run : Instr → State → Host.Outcome State Fault Refusal} {s : State} {w : Word}
    (hrun : ∀ i t, LackedBy t.cfg i → run i t = .next (t.respond .refused))
    (hc : s.turn.command = some w) (hw : refusedWord s.cfg w) :
    acceptCommand run s = .next (s.beginTick.respond .refused) := by
  cases hd : decode w with
  | ok i => rw [acceptCommand_of_ok hc hd, hrun i s.beginTick ((refusedWord_iff_lackedBy hd s.cfg).1 hw)]
  | reject r => rw [acceptCommand_of_reject hc hd]; rfl

theorem firstTick_of_lacked {i : Instr} {s : State} (h : LackedBy s.cfg i) :
    firstTick i s = .next (s.respond .refused) := by
  rw [firstTick_of_not_sweep (by rintro ow rfl; exact h), exec_of_lacked h]

/-- Settles O7: the whole command and its first tick both refuse. -/
theorem refusedWordChangesNoState : Obligations.RefusedWordChangesNoState := by
  intro s w hl hp ha hc hw
  have hstep : step s = .next (s.beginTick.respond .refused) :=
    (edge_of_idle hl ha hp).trans (acceptCommand_of_refused (fun _ _ => exec_of_lacked) hc hw)
  have htick : tick s = .next (s.beginTick.respond .refused) :=
    (edge_of_idle hl ha hp).trans (acceptCommand_of_refused (fun _ _ => firstTick_of_lacked) hc hw)
  exact ⟨hstep, htick.trans hstep.symm⟩

end Sys2Proof.Proofs
end

section
/-! PROOFS. Which bits of a frame the decoder reads, and that its numbers and sentinels are Readings the response format
keeps apart (spec/30_encoding.md R78, R81; spec/40_frame_decoder.md R90 to R98). -/

namespace Sys2Proof.Proofs

open Sys2Proof.Machine Sys2Proof.Laws

/-! ### The signed fields -/

/-- Inverting a value whose bit `n` is its highest and keeping the low `n` bits leaves what it lacks to `2 ^ (n + 1) - 1`. -/
theorem inverted_mod {n x : Nat} (hn : n < 32) (hlo : 2 ^ n ≤ x) (hhi : x < 2 ^ (n + 1)) :
    (2 ^ 32 - 1 - x) % 2 ^ n = 2 ^ (n + 1) - 1 - x := by
  obtain ⟨k, hk⟩ : ∃ k, 2 ^ 32 - 2 ^ (n + 1) = 2 ^ n * k :=
    Nat.dvd_sub (Nat.pow_dvd_pow 2 hn.le) (Nat.pow_dvd_pow 2 n.le_succ)
  have hle : 2 ^ (n + 1) ≤ 2 ^ 32 := Nat.pow_le_pow_right (by decide) hn
  have hsplit : 2 ^ 32 - 1 - x = 2 ^ (n + 1) - 1 - x + 2 ^ n * k := by omega
  rw [hsplit, Nat.add_mul_mod_self_left, Nat.mod_eq_of_lt (by omega)]

/-- The source's sign procedure (invert, mask, add 1, negate where the top bit is set) on a value of `n + 1` bits, where
`mask` keeps the low `n`, is sign extension (R94, R98). -/
theorem signProcedure_eq_toInt {n : Nat} (hn : n < 32) {v mask : Frame} (x : BitVec (n + 1)) (hv : v.toNat = x.toNat)
    (hmask : mask.toNat = 2 ^ n - 1) :
    (if v.getLsbD n then -(((~~~v &&& mask).toNat : Int) + 1) else ((v &&& mask).toNat : Int)) = x.toInt := by
  have htop : v.getLsbD n = x.msb := by
    rw [BitVec.msb_eq_getLsbD_last, ← BitVec.testBit_toNat, ← BitVec.testBit_toNat, hv, Nat.add_sub_cancel]
  rw [htop, BitVec.toInt_eq_msb_cond, BitVec.toNat_and, BitVec.toNat_and, BitVec.toNat_not, hmask, hv,
    Nat.and_two_pow_sub_one_eq_mod, Nat.and_two_pow_sub_one_eq_mod]
  have hmsb : x.msb = true ↔ 2 ^ n ≤ x.toNat := by rw [BitVec.msb_eq_decide, decide_eq_true_iff, Nat.add_sub_cancel]
  split
  · next h =>
    have hlt := x.isLt
    rw [inverted_mod hn (hmsb.1 h) hlt]
    omega
  · next h => rw [Nat.mod_eq_of_lt (not_le.1 (mt hmsb.2 h))]

theorem tcCode_eq (f : Frame) : tcCode f = (f.extractLsb' 18 14).toInt := by
  refine signProcedure_eq_toInt (n := 13) (by decide) _ ?_ rfl
  have hlt : f.toNat >>> 18 < 2 ^ 14 := by
    rw [Nat.shiftRight_eq_div_pow]
    exact Nat.div_lt_of_lt_mul f.isLt
  rw [BitVec.extractLsb'_toNat, BitVec.toNat_ushiftRight, Nat.mod_eq_of_lt hlt]

theorem cjCode_eq (f : Frame) : cjCode f = (f.extractLsb' 4 12).toInt := by
  refine signProcedure_eq_toInt (n := 11) (by decide) _ ?_ rfl
  rw [BitVec.extractLsb'_toNat, BitVec.toNat_and, BitVec.toNat_ushiftRight]
  exact Nat.and_two_pow_sub_one_eq_mod _ 12

/-! ### The fault bits -/

/-- The fault bits as a field of their own (R91). -/
theorem faultReading_eq (c : Config) (f : Frame) : faultReading c f =
    if (f.extractLsb' 0 3).getLsbD 0 then c.faultOpen
    else if (f.extractLsb' 0 3).getLsbD 1 then c.faultShortToGround
    else if (f.extractLsb' 0 3).getLsbD 2 then c.faultShortToSupply
    else c.untypedFault := by
  simp only [BitVec.getLsbD_extractLsb', faultReading]
  rfl

/-- A frame with a fault-type bit names a sentinel (R91). -/
theorem faultReading_mem_sentinels (c : Config) {f : Frame} (h : f.extractLsb' 0 3 ≠ 0#3) :
    faultReading c f ∈ c.sentinels := by
  have hzero : ∀ t : BitVec 3, ¬ t.getLsbD 0 → ¬ t.getLsbD 1 → ¬ t.getLsbD 2 → t = 0#3 := by decide
  rw [faultReading_eq]
  split_ifs with h0 h1 h2
  · simp [Config.sentinels]
  · simp [Config.sentinels]
  · simp [Config.sentinels]
  · exact absurd (hzero _ h0 h1 h2) h

theorem decodeTc_of_fault (c : Config) {f : Frame} (h : f.getLsbD 16 = true) : decodeTc c f = faultReading c f := by
  rw [decodeTc, h, if_pos rfl]

theorem decodeTc_of_no_fault (c : Config) {f : Frame} (h : f.getLsbD 16 = false) :
    decodeTc c f = (tcCode f : Reading) / 4 := by
  rw [decodeTc, h, if_neg (by decide)]

theorem decodeTc_congr_of_fault (c : Config) {f g : Frame} (hf : f.getLsbD 16 = true) (hg : g.getLsbD 16 = true)
    (h : f.extractLsb' 0 3 = g.extractLsb' 0 3) : decodeTc c f = decodeTc c g := by
  rw [decodeTc_of_fault c hf, decodeTc_of_fault c hg, faultReading_eq, faultReading_eq, h]

theorem decodeTc_congr_of_no_fault (c : Config) {f g : Frame} (hf : f.getLsbD 16 = false) (hg : g.getLsbD 16 = false)
    (h : f.extractLsb' 18 14 = g.extractLsb' 18 14) : decodeTc c f = decodeTc c g := by
  rw [decodeTc_of_no_fault c hf, decodeTc_of_no_fault c hg, tcCode_eq, tcCode_eq, h]

/-- Settles O32: the fault flag selects the field that is read, and each is read as a whole. -/
theorem ignoredFrameBitsNeverMatter : Obligations.IgnoredFrameBitsNeverMatter := by
  intro c f g
  refine ⟨fun hflag hnum hfault => ?_, decodeTc_congr_of_no_fault c, decodeTc_congr_of_fault c, fun h => ?_⟩
  · cases hg : g.getLsbD 16 with
    | false => exact decodeTc_congr_of_no_fault c (hflag.trans hg) hg hnum
    | true => exact decodeTc_congr_of_fault c (hflag.trans hg) hg hfault
  · rw [decodeCj, decodeCj, cjCode_eq, cjCode_eq, h]

/-! ### Decoded Readings at the response port -/

theorem decodeCj_mem_exactReadings (c : Config) (f : Frame) : decodeCj f ∈ exactReadings c := by
  have hlo : -2 ^ 11 ≤ cjCode f := cjCode_eq f ▸ BitVec.le_toInt _
  have hhi := cjCode_le f
  exact sixteenth_mem_exactReadings c (by omega) (by omega)

/-- A quarter is four sixteenths. -/
theorem decodeTc_mem_exactReadings (c : Config) {f : Frame}
    (h : ¬(f.getLsbD 16 = true ∧ f.extractLsb' 0 3 = 0#3)) : decodeTc c f ∈ exactReadings c := by
  cases hf : f.getLsbD 16 with
  | true =>
    rw [decodeTc_of_fault c hf]
    exact sentinel_mem_exactReadings (faultReading_mem_sentinels c fun hz => h ⟨hf, hz⟩)
  | false =>
    have hlo : -2 ^ 13 ≤ tcCode f := tcCode_eq f ▸ BitVec.le_toInt _
    have hhi := tcCode_le f
    have hsixteenths : decodeTc c f = ((4 * tcCode f : Int) : Reading) / 16 := by
      rw [decodeTc_of_no_fault c hf]; push_cast; ring
    rw [hsixteenths]
    exact sixteenth_mem_exactReadings c (by omega) (by omega)

/-- Settles O46: what a decoder returns is a sixteenth in range or a sentinel, and the format is injective on those. -/
theorem decodedReadingsKeepTheirCodes : Obligations.DecodedReadingsKeepTheirCodes := by
  intro c f g
  have hinj := readingFmt_injOn_exactReadings c
  exact ⟨fun h => hinj (decodeCj_mem_exactReadings c f) (decodeCj_mem_exactReadings c g) h,
    fun hf hg h => hinj (decodeTc_mem_exactReadings c hf) (decodeTc_mem_exactReadings c hg) h⟩

end Sys2Proof.Proofs
end

section
/-! PROOFS. The Frame Decoder as its own family states it (spec/40_frame_decoder.md R91, R94, R95, R98 to R100): the fault
table row by row, the two sign-extended fields, and the ranges of the decoded numbers. -/

namespace Sys2Proof.Proofs

open Sys2Proof.Machine

/-- Settles O28: the three fault bits are the frame modulo 8, and each of its eight values selects its row. -/
theorem faultBitsAreHonouredInPriorityOrder : Obligations.FaultBitsAreHonouredInPriorityOrder := by
  intro c f hfault
  have hfield : f.toNat % 8 = (f.extractLsb' 0 3).toNat := by rw [BitVec.extractLsb'_toNat]; rfl
  rw [decodeTc_of_fault c hfault, faultReading_eq, hfield]
  generalize f.extractLsb' 0 3 = bits
  match bits with
  | 0#3 | 1#3 | 2#3 | 3#3 | 4#3 | 5#3 | 6#3 | 7#3 => rfl

/-- Settles O29: the source's procedure on the 14-bit field is sign extension. -/
theorem thermocoupleFieldIsSignExtended : Obligations.ThermocoupleFieldIsSignExtended := by
  intro c f hnofault
  rw [decodeTc_of_no_fault c hnofault, tcCode_eq]

/-- Settles O30: the source's procedure on the 12-bit field is sign extension, and it reads no other bit. -/
theorem junctionFieldIsSignExtended : Obligations.JunctionFieldIsSignExtended := by
  intro f
  rw [decodeCj, cjCode_eq]

/-- R95: the least thermocouple code is `-2 ^ 13`, in quarters. -/
theorem le_decodeTc_of_no_fault (c : Config) {f : Frame} (hf : f.getLsbD 16 = false) : -2048 ≤ decodeTc c f := by
  have hcode : -2 ^ 13 ≤ tcCode f := tcCode_eq f ▸ BitVec.le_toInt _
  have hcast : (-2 ^ 13 : Reading) ≤ tcCode f := by exact_mod_cast hcode
  rw [decodeTc_of_no_fault c hf]
  linarith

/-- R99: the least junction code is `-2 ^ 11`, in sixteenths. -/
theorem le_decodeCj (f : Frame) : -128 ≤ decodeCj f := by
  have hcode : -2 ^ 11 ≤ cjCode f := cjCode_eq f ▸ BitVec.le_toInt _
  have hcast : (-2 ^ 11 : Reading) ≤ cjCode f := by exact_mod_cast hcode
  unfold decodeCj
  linarith

/-- R99: the junction's own upper bound, which is tighter than `decodeCj_le`. -/
theorem decodeCj_le_largest_sixteenth (f : Frame) : decodeCj f ≤ 127.9375 := by
  have hcast : (cjCode f : Reading) ≤ 2047 := by exact_mod_cast cjCode_le f
  unfold decodeCj
  linarith

/-- R100: the decoders' range ends below every sentinel of a legal instance. -/
theorem decodeTc_not_sentinel_of_no_fault {c : Config} (h : c.legal = true) {f : Frame} (hf : f.getLsbD 16 = false) :
    c.isSentinel (decodeTc c f) = false := by
  rw [← Bool.not_eq_true, isSentinel_iff, not_le]
  exact (decodeTc_le_of_no_fault c hf).trans_lt (lt_sentinelMin_of_legal h)

/-- Settles O31: the codes are the numbers of quarters and sixteenths, and their bounds keep them below the sentinels. -/
theorem decodedNumbersAreNoSentinels : Obligations.DecodedNumbersAreNoSentinels := by
  intro c f
  refine ⟨fun hnofault => ?_, ⟨cjCode f, rfl⟩, le_decodeCj f, decodeCj_le_largest_sixteenth f,
    fun hlegal => decodeCj_not_sentinel hlegal f⟩
  exact ⟨⟨tcCode f, decodeTc_of_no_fault c hnofault⟩, le_decodeTc_of_no_fault c hnofault,
    decodeTc_le_of_no_fault c hnofault, fun hlegal => decodeTc_not_sentinel_of_no_fault hlegal hnofault⟩

end Sys2Proof.Proofs
end


section
/-! PROOFS. The sequencer at tick level, row by row of its table: the IDLE rows, which hold everything or accept a
command, and the rows of a running sweep (spec/41_bus_capture.md R119, spec/70_reset_and_hazards.md R183). -/

namespace Sys2Proof.Proofs

open Sys2Proof.Machine

/-! ### The IDLE rows -/

/-- Settles O8: with nothing on the port the edge only begins a tick, whatever runs the commands. -/
theorem quietTickHoldsEverything : Obligations.QuietTickHoldsEverything := by
  intro s hl hp ha hc
  have hedge : ∀ run, edge run s = .next s.beginTick := fun run => by
    rw [edge_of_idle hl ha hp, acceptCommand_of_quiet hc]
  exact ⟨hedge exec, (hedge firstTick).trans (hedge exec).symm⟩

theorem tick_of_command {s : State} {w : Word} {i : Instr} (hl : s.cfg.legal = true) (hp : s.phase = .idle)
    (ha : s.turn.asserts = false) (hc : s.turn.command = some w) (hd : decode w = .ok i) :
    tick s = firstTick i s.beginTick := by
  rw [tick, edge_of_idle hl ha hp, acceptCommand_of_ok hc hd]

/-- Settles O36: only SWEEP has a first tick that is not the whole command. -/
theorem acceptingTickStartsASweep : Obligations.AcceptingTickStartsASweep := by
  intro s w i hl hp ha hc hd
  rw [tick_of_command hl hp ha hc hd]
  constructor
  · rintro ow rfl
    rfl
  · intro hi
    rw [firstTick_of_not_sweep hi, stepRunsTheDecodedCommand s w i hl hp ha hc hd]
    rfl

/-! ### The rows of a running sweep -/

/-- The UPDATEs of a chain of lines may take configuration and lanes from any state that has the chain's own. -/
theorem foldl_updateLine_eq (a : Nat) (ow : Bool) (ls : List Nat) {s u : State} (hcfg : u.cfg = s.cfg)
    (hlane : ∀ l, u.lane l = s.lane l) :
    ls.foldl (updateLine a ow) u =
      ls.foldl (fun u l => update (entryOfLine s.cfg a l).1 (entryOfLine s.cfg a l).2 (decodeTc s.cfg (s.lane l))
        (decodeCj (s.lane l)) ow u) u := by
  induction ls generalizing u with
  | nil => rfl
  | cons l ls ih =>
    have hcfg' : (updateLine a ow u l).cfg = s.cfg := (updateLine_cfg a ow u l).trans hcfg
    have hlane' : ∀ k, (updateLine a ow u l).lane k = s.lane k := fun k =>
      (updateLine_lane a ow u l k).trans (hlane k)
    rw [List.foldl_cons, ih hcfg' hlane', List.foldl_cons, updateLine, hcfg, hlane]

theorem updateLines_of_multiplexed {a : Nat} {ow : Bool} {s : State} (hm : s.cfg.topology = .addressMultiplexed) :
    updateLines a ow s = (List.range s.cfg.hubCount).foldl (fun u l =>
      update l a (decodeTc s.cfg (s.lane l)) (decodeCj (s.lane l)) ow u) s := by
  simp only [updateLines, foldl_updateLine_eq a ow _ (s := s) rfl fun _ => rfl, Config.nLines, entryOfLine, hm]

theorem updateLines_of_chipSelect {a : Nat} {ow : Bool} {s : State} (hm : s.cfg.topology = .chipSelectPerChannel) :
    updateLines a ow s = (List.range 16).foldl (fun u l =>
      update 0 l (decodeTc s.cfg (s.lane l)) (decodeCj (s.lane l)) ow u) s := by
  simp only [updateLines, foldl_updateLine_eq a ow _ (s := s) rfl fun _ => rfl, Config.nLines, entryOfLine, hm]

/-- The chip-select plays no part in the UPDATEs, nor they in its drive. -/
theorem updateLines_driveCsN (a : Nat) (ow b : Bool) (s : State) :
    updateLines a ow (s.driveCsN b) = (updateLines a ow s).driveCsN b := by
  refine List.foldl_hom (State.driveCsN b) fun u l => ?_
  simp only [updateLine, update_eq]
  rfl

theorem updateLines_csN (a : Nat) (ow : Bool) (s : State) : (updateLines a ow s).csN = s.csN := by
  rw [updateLines_frame]

theorem seqSetup_of_multiplexed {s : State} (hm : s.cfg.topology = .addressMultiplexed) :
    seqSetup s = { addrDrive s.acnt s with bcnt := 0#6, phase := .rise } := by
  simp only [seqSetup, hm]

theorem seqSetup_of_chipSelect {s : State} (hm : s.cfg.topology = .chipSelectPerChannel) :
    seqSetup s = { s.driveCsN false with bcnt := 0#6, phase := .rise } := by
  simp only [seqSetup, hm]

/-- Every lane takes its own line's bit, at one instant (R112). -/
theorem seqSample_lane (s : State) {l : Nat} (h : l < s.shift.length) :
    (seqSample s).lane l = shiftIn (s.lane l) ((s.comingSample 0).getLsbD l) := takeSample_lane s l h

theorem seqLow3_of_lt {s : State} (h : s.bcnt.toNat < 32) :
    seqLow3 s = { s.driveSck false with phase := .rise } := by
  rw [seqLow3, if_pos h]

theorem seqLow3_of_done {s : State} (h : s.bcnt.toNat = 32) :
    seqLow3 s = { s.driveSck false with phase := .commit } := by
  rw [seqLow3, if_neg h.not_lt]

/-- COMMIT with an address to come. -/
theorem seqCommit_of_next {s : State} (hm : s.cfg.topology = .addressMultiplexed)
    (h : s.acnt.toNat + 1 < s.cfg.addressCount) :
    seqCommit s = { updateLines s.acnt.toNat s.ow s with acnt := s.acnt + 1#4, phase := .setup } := by
  simp only [seqCommit, hm, if_pos h]

/-- COMMIT of the last address. -/
theorem seqCommit_of_last {s : State} (hm : s.cfg.topology = .addressMultiplexed)
    (h : s.acnt.toNat + 1 = s.cfg.addressCount) :
    seqCommit s = { updateLines s.acnt.toNat s.ow s with phase := .finish } := by
  simp only [seqCommit, hm, if_neg h.not_lt]

theorem seqCommit_of_chipSelect {s : State} (hm : s.cfg.topology = .chipSelectPerChannel) :
    seqCommit s = { updateLines 0 s.ow s with
      csN := true, phase := .finish
      pinHistory := s.pinHistory ++ (if s.csN = true then [] else [.csN true]) } := by
  have hdrive : (updateLines 0 s.ow s).driveCsN true = { updateLines 0 s.ow s with
      csN := true, pinHistory := s.pinHistory ++ (if s.csN = true then [] else [.csN true]) } := by
    rw [State.driveCsN, updateLines_csN, updateLines_pinHistory]
  simp only [seqCommit, hm, updateLines_driveCsN, hdrive]

/-- Settles O35: a busy tick begins the tick, then does the sequencer's row for the phase. -/
theorem sequencerFollowsTheTable : Obligations.SequencerFollowsTheTable := by
  intro s b hl ha hb
  obtain rfl : b = s.beginBusyTick := hb
  have htick : ∀ {q : Phase} {t : State}, s.phase = q → q ≠ .idle →
      (s.beginBusyTick.phase = q → seqTick s.beginBusyTick = t) → tick s = .next t :=
    fun hp hbusy hrow => hrow hp ▸ edge_of_busy hl ha (hp ▸ hbusy)
  refine ⟨fun hp hm => ?setup, fun hp hm => ?setupChip, fun hp => ?rise, fun hp => ?sample, fun hp => ?low2,
    fun hp hlt => ?low3, fun hp hdone => ?low3Done, fun hp hm hnext => ?commitNext, fun hp hm hlast => ?commitLast,
    fun hp hm => ?commitChip, fun hp => ?finish⟩
  case setup => exact htick hp nofun fun h => (seqTick_setup h).trans (seqSetup_of_multiplexed hm)
  case setupChip => exact htick hp nofun fun h => (seqTick_setup h).trans (seqSetup_of_chipSelect hm)
  case rise => exact htick hp nofun seqTick_rise
  case sample =>
    exact ⟨_, htick hp nofun seqTick_sample, fun _ hline => seqSample_lane s.beginBusyTick hline,
      shiftLanes_length _ _ _, rfl⟩
  case low2 => exact htick hp nofun seqTick_low2
  case low3 => exact htick hp nofun fun h => (seqTick_low3 h).trans (seqLow3_of_lt hlt)
  case low3Done => exact htick hp nofun fun h => (seqTick_low3 h).trans (seqLow3_of_done hdone)
  case commitNext =>
    refine htick hp nofun fun h => ?_
    rw [seqTick_commit h, seqCommit_of_next (s := s.beginBusyTick) hm hnext,
      updateLines_of_multiplexed (s := s.beginBusyTick) hm]
    rfl
  case commitLast =>
    refine htick hp nofun fun h => ?_
    rw [seqTick_commit h, seqCommit_of_last (s := s.beginBusyTick) hm hlast,
      updateLines_of_multiplexed (s := s.beginBusyTick) hm]
    rfl
  case commitChip =>
    refine htick hp nofun fun h => ?_
    rw [seqTick_commit h, seqCommit_of_chipSelect (s := s.beginBusyTick) hm,
      updateLines_of_chipSelect (s := s.beginBusyTick) hm]
    rfl
  case finish => exact htick hp nofun seqTick_finish

end Sys2Proof.Proofs
end

section
/-! PROOFS. CAPTURE32 and SWEEP, operation level and tick level: what a capture shifts in (spec/41_bus_capture.md R111),
that the ticks of a sweep are its pseudocode (R116, R117, R121), and what it leaves in the store (R118, R142). -/

namespace Sys2Proof.Proofs

open Sys2Proof.Machine

/-! ### CAPTURE32 -/

/-- Settles O34: a register holds its line's frame, whose bits are the samples. -/
theorem captureShiftsInEverySample : Obligations.CaptureShiftsInEverySample := by
  rintro s hsck t rfl
  refine ⟨capture32_sck s, bitCycles_shift_length 32 s, fun l hl k hk => ?_, fun l hl => capture32_lane s l hl,
    capture32_pinHistory hsck, ?_⟩
  · rw [capture32_lane s l hl, captureFrame_getLsbD s 0 l k hk, Nat.mul_zero, Nat.zero_add]
  · rw [capture32, bitCycles_eq 32 hsck]

/-! ### The operation level -/

/-- Settles O37: the sequencer's ticks from acceptance to FINISH make the pseudocode's captures and its count. -/
theorem sweepMeetsItsPseudocode : Obligations.SweepMeetsItsPseudocode := fun _ ow hl hr =>
  exec_sweep_of_no_reset ow hl hr

/-! ### The tick level -/

theorem ticks_succ_of_next {s t : State} (h : tick s = .next t) (n : Nat) : ticks (n + 1) s = ticks n t := by
  rw [ticks, h]

/-- A busy block's edge is its busy tick, a reset or not. -/
theorem tick_eq_busyTick {s : State} (hl : s.cfg.legal = true) (hp : s.phase ≠ .idle) :
    tick s = .next (busyTick s) := by
  cases ha : s.turn.asserts with
  | true => rw [tick, edge_of_reset hl ha, busyTick, if_pos ha]
  | false => rw [tick, edge_of_busy hl ha hp, busyTick_of_no_reset ha]

/-- As long as the block is busy, edges of the clock are what a whole command runs. -/
theorem ticks_eq_runBusy (n : Nat) {s : State} (hl : s.cfg.legal = true)
    (hb : ∀ j < n, (runBusy j s).phase ≠ .idle) : ticks n s = .next (runBusy n s) := by
  induction n generalizing s with
  | zero => rfl
  | succ n ih =>
    have hp : s.phase ≠ .idle := hb 0 n.succ_pos
    have hcfg : (busyTick s).cfg = s.cfg := (stable_cfg s.cfg).busyTick rfl
    have hbusy : ∀ j < n, (runBusy j (busyTick s)).phase ≠ .idle := fun j hj => by
      rw [← runBusy_succ hp]
      exact hb (j + 1) (by omega)
    rw [ticks_succ_of_next (tick_eq_busyTick hl hp), runBusy_succ hp]
    exact ih (hcfg ▸ hl) hbusy

/-- Before FINISH the sequencer gives no response. -/
theorem seqTicks_responses (n : Nat) {s : State} (hf : ∀ j < n, (seqTicks j s).phase ≠ .finish) :
    (seqTicks n s).responses = s.responses := by
  induction n generalizing s with
  | zero => rfl
  | succ n ih =>
    calc (seqTicks n (seqTick s)).responses
      _ = (seqTick s).responses := ih fun j hj => hf (j + 1) (by omega)
      _ = s.responses := (seqTick_frame s).2 (hf 0 n.succ_pos)

theorem portAfter_none (n : Nat) : portAfter n none = none := by cases n <;> rfl

/-- From acceptance up to the FINISH tick, with no reset: busy, and silent. -/
theorem runBusy_sweep_silent (ow : Bool) {s : State} {k : Nat} (hl : s.cfg.legal = true) (hresp : s.resp = none)
    (hk : k < s.cfg.sweepTicks - 1) (hr : noResetWithin k s.host = true) :
    (runBusy k (acceptSweep ow s)).phase ≠ .idle ∧ (runBusy k (acceptSweep ow s)).resp = none ∧
      (runBusy k (acceptSweep ow s)).responses = s.responses := by
  rw [sweepTicks_sub_one] at hk
  obtain ⟨⟨x, hbody⟩, hin⟩ := seqTicks_sweep ow hl
  have hbusy : (seqTicks k (acceptSweep ow s)).phase ≠ .idle := by
    rcases Nat.lt_succ_iff_lt_or_eq.1 hk with hlt | rfl
    · exact (hin k hlt).1
    · rw [hbody]
      exact nofun
  have hrun : runBusy k (acceptSweep ow s) = (seqTicks k (acceptSweep ow s)).outside (busyTurnsAfter k s.host)
      (portAfter k none) (s.tickNo + k) :=
    hresp ▸ runBusy_add k 0 (fun j hj => hin j (by omega)) hr
  rw [hrun]
  exact ⟨hbusy, portAfter_none k, seqTicks_responses k fun j hj => (hin j (by omega)).2⟩

/-- Settles O38: after the tick of acceptance both levels run the same busy ticks, silent but for the last. -/
theorem tickLevelAgreesWithOperationLevel : Obligations.TickLevelAgreesWithOperationLevel := by
  intro s w ow n hl hp ha hc hd hn hr
  obtain rfl : n = s.cfg.sweepTicks := by
    rw [hn, Config.sweepTicks, Config.captures]
    cases s.cfg.topology <;> rfl
  have haccept : ∀ k, ticks (k + 1) s = ticks k (acceptSweep ow s.beginTick) :=
    ticks_succ_of_next (tick_of_command hl hp ha hc hd)
  have hsilent : ∀ k < s.cfg.sweepTicks - 1, _ := fun k hk =>
    runBusy_sweep_silent ow (s := s.beginTick) hl rfl hk (noResetWithin_mono hk.le hr)
  have hticks : ∀ k ≤ s.cfg.sweepTicks - 1,
      ticks (k + 1) s = .next (runBusy k (acceptSweep ow s.beginTick)) := fun k hk => by
    rw [haccept, ticks_eq_runBusy k (s := acceptSweep ow s.beginTick) hl fun j hj => (hsilent j (by omega)).1]
  have hstep : step s = exec (.sweep ow) s.beginTick := stepRunsTheDecodedCommand s w _ hl hp ha hc hd
  have hend := exec_sweep_of_no_reset ow (s := s.beginTick) hl hr
  have hresponses := (sweepBody_captured ow s.beginTick).responses
  rw [sweepOp_eq] at hend
  refine ⟨_, (hticks _ le_rfl).trans hend, hstep.trans hend, rfl, ?_, rfl, congrArg (· ++ _) hresponses, ?_⟩
  · exact (Nat.add_assoc s.tickNo 1 _).trans (congrArg _ (Nat.add_comm 1 _))
  · intro k hpos hk
    obtain ⟨m, rfl⟩ := Nat.exists_eq_add_of_le' hpos
    obtain ⟨hbusy, hresp, hresps⟩ := hsilent m (by omega)
    have hb : (runBusy m (acceptSweep ow s.beginTick)).busy = true := decide_eq_true hbusy
    exact ⟨_, hticks m (by omega), hb, by rw [State.cmdReady, hb]; rfl, hresp, hresps⟩

/-! ### The store after a sweep -/

theorem retainedTc_eq (c : Config) (ow : Bool) (old new : Reading) :
    retainedTc c ow old new =
      if ow = true ∨ c.isSentinel new = false ∨ old = c.uninitialized then new else old := by
  simp only [retainedTc, replacesTc_iff]

/-- R118: the count as a number of store addresses. -/
theorem countValid_eq_card (s : State) :
    s.countValid = ((Finset.range s.cfg.nHubs ×ˢ Finset.range s.cfg.nCh).filter
      fun e => s.readTc e.1 e.2 < s.cfg.sentinelMin).card := by
  have hentries : (Finset.range s.cfg.nHubs ×ˢ Finset.range s.cfg.nCh).val = ↑s.cfg.entries :=
    Multiset.coe_product _ _
  have hvalid : ∀ r, (!s.cfg.isSentinel r) = decide (r < s.cfg.sentinelMin) := fun r => by
    rw [Config.isSentinel, ← decide_not, decide_eq_decide, not_le]
  simp only [State.countValid, hvalid, Finset.card_def, Finset.filter_val, hentries, Multiset.filter_coe,
    Multiset.coe_card, List.countP_eq_length_filter]

/-- The 8-bit register holds the count of a legal instance (R25, log 17). -/
theorem toNat_countValid {s : State} (hl : s.cfg.legal = true) :
    (BitVec.ofNat 8 s.countValid).toNat = s.countValid := by
  have hle := countValid_le s
  obtain ⟨-, -, -, -, -, -, -, -, h160⟩ := legal_bounds hl
  exact (BitVec.toNat_ofNat _ _).trans (Nat.mod_eq_of_lt (by omega))

/-- Settles O39: the sweep's body fills the store, and FINISH counts it. -/
theorem sweepUpdatesEveryEntryOnce : Obligations.SweepUpdatesEveryEntryOnce := by
  intro s ow hl hshift ht hj hr
  have hbody := sweepBody_captured ow s
  have hstore := sweepBody_filled ow hl hshift ht hj
  have hcount : (BitVec.ofNat 8 (sweepBody ow s).countValid).toNat = (sweepBody ow s).countValid :=
    toNat_countValid (hbody.cfg ▸ hl)
  have hcard := countValid_eq_card (sweepBody ow s)
  have hle := countValid_le (sweepBody ow s)
  rw [hbody.cfg] at hcard hle
  obtain ⟨-, -, -, -, -, -, -, -, h160⟩ := legal_bounds hl
  rw [exec_sweep_of_no_reset ow hl hr, sweepOp_eq]
  refine ⟨_, rfl, fun h c hh hc f hf => ?_, fun h c hc hno => ?_, hcount.trans hcard, hcount.trans_le hle, h160, rfl,
    congrArg (· ++ _) hbody.responses⟩
  · subst hf
    rw [← retainedTc_eq]
    exact hstore.filled h c hh hc (captureOf_lt hc)
  · exact (hstore.kept h c hc fun ⟨hh, hch, _⟩ => hno ⟨hh, hch⟩).symm

end Sys2Proof.Proofs
end

section
/-! PROOFS. The Reading Store (spec/42_reading_store.md R140, R144 to R148, R151): the Fahrenheit conversion, UPDATE, the
four read commands, and a SWEEP run again on the frames it has stored. -/

namespace Sys2Proof.Proofs

open Sys2Proof.Machine Sys2Proof.Laws

/-! ### The Fahrenheit conversion -/

/-- A sixteenth converts to eightieths. -/
theorem fahrenheit_sixteenth (n : Int) : fahrenheit ((n : Reading) / 16) = ((9 * n + 2560 : Int) : Reading) / 80 := by
  rw [fahrenheit_eq]
  push_cast
  ring

/-- 1/16 converts to 2569/80, whose denominator keeps its factor 5. -/
theorem fahrenheit_one_sixteenth_not_binary (m : Int) (k : Nat) :
    fahrenheit (((1 : Int) : Reading) / 16) ≠ (m : Reading) / 2 ^ k := by
  intro h
  rw [fahrenheit_sixteenth, div_eq_div_iff (by norm_num) (by positivity)] at h
  have hint : (2569 : Int) * 2 ^ k = m * 80 := by exact_mod_cast h
  have hdvd : (5 : Int) ∣ 2569 * 2 ^ k := by omega
  have hprime : Prime (5 : Int) := Int.prime_iff_natAbs_prime.2 (by decide)
  obtain h2569 | hpow := hprime.dvd_or_dvd hdvd
  · omega
  · have htwo : (5 : Int) ∣ 2 := hprime.dvd_of_dvd_pow hpow
    omega

/-- Settles O26: the formula gives the order and the eightieths, and 1/16 converts to no binary fraction. -/
theorem fahrenheitIsExactAndIncreasing : Obligations.FahrenheitIsExactAndIncreasing := by
  refine ⟨fun r => ⟨by rw [fahrenheit, mul_div_assoc], fahrenheit_eq r⟩, fun _ _ h => fahrenheit_strictMono h,
    fun _ _ h => fahrenheit_strictMono.injective h, fun n => ⟨_, fahrenheit_sixteenth n⟩,
    ⟨1, fahrenheit_one_sixteenth_not_binary⟩, ?_⟩
  norm_num [fahrenheit_eq]

/-! ### UPDATE -/

/-- Settles O33: a read after UPDATE sees its entry's two writes, the thermocouple one by the policy, and no other. -/
theorem updateFollowsTheRetentionPolicy : Obligations.UpdateFollowsTheRetentionPolicy := by
  rintro s h c tc cj ow ht hj hc t rfl
  obtain ⟨hwfTc, hwfCj⟩ := update_wf ht hj h c tc cj ow
  refine ⟨?_, ?_, fun h' c' hc' hother => ?_, ?_, hwfTc, hwfCj⟩
  · rw [update_readCj hj hc _ _ _ hc, if_pos rfl]
  · rw [update_readTc ht hc _ _ _ hc, if_pos rfl, retainedTc_eq]
  · rw [update_readTc ht hc _ _ _ hc', update_readCj hj hc _ _ _ hc', if_neg hother, if_neg hother]
    exact ⟨rfl, rfl⟩
  · rw [update_eq]

/-! ### A second SWEEP without overwrite -/

/-- The retention policy without overwrite settles at once: the same Reading offered again changes nothing (R151). -/
theorem retainedTc_retainedTc (c : Config) (ow : Bool) (old new : Reading) :
    retainedTc c ow (retainedTc c ow old new) new = retainedTc c ow old new := by
  by_cases h : replacesTc c ow old new = true
  · have hnew : retainedTc c ow old new = new := if_pos h
    rw [hnew, retainedTc, ite_self]
  · have hold : retainedTc c ow old new = old := if_neg h
    rw [hold, hold]

/-- The count looks at the instance's entries only. -/
theorem countValid_congr {s t : State} (hcfg : t.cfg = s.cfg)
    (h : ∀ hub ch, hub < s.cfg.nHubs → ch < s.cfg.nCh → t.readTc hub ch = s.readTc hub ch) :
    t.countValid = s.countValid := by
  rw [State.countValid, State.countValid, hcfg]
  refine List.countP_congr fun e he => ?_
  obtain ⟨hhub, hch⟩ := List.pair_mem_product.1 he
  rw [h e.1 e.2 (List.mem_range.1 hhub) (List.mem_range.1 hch)]

/-- A SWEEP with no reset ends with every entry filled by its captures, and with their count in the status register. -/
theorem exec_sweep_filled (ow : Bool) {s : State} (hl : s.cfg.legal = true) (hshift : s.shift.length = s.cfg.nLines)
    (ht : s.tc.wf s.cfg.uninitialized) (hj : s.cj.wf s.cfg.uninitialized)
    (hr : noResetWithin (s.cfg.sweepTicks - 1) s.host = true) :
    ∃ t, exec (.sweep ow) s = .next t ∧ t.cfg = s.cfg ∧ t.shift.length = s.cfg.nLines ∧
      Filled ow s.cfg.captures s t ∧ t.validCount = BitVec.ofNat 8 t.countValid := by
  have hbody := sweepBody_captured ow s
  rw [exec_sweep_of_no_reset ow hl hr, sweepOp_eq]
  exact ⟨_, rfl, hbody.cfg, hbody.shift_length.trans hshift,
    (sweepBody_filled ow hl hshift ht hj).of_store rfl rfl rfl, rfl⟩

/-- Settles O42: every entry decodes the same frame again, and the policy has settled it the first time. -/
theorem sweepWithoutOverwriteIsIdempotent : Obligations.SweepWithoutOverwriteIsIdempotent := by
  intro s t t' hl hshift ht hj hr hrun hcfg' htc' hcj' hshift' hr' hframes
  obtain ⟨_, hrun₁, hcfg, hlen, hfilled, hcount⟩ := exec_sweep_filled false hl hshift ht hj hr
  cases hrun₁.symm.trans hrun
  replace hcfg' := hcfg'.trans hcfg
  obtain ⟨u, hrun₂, hcfgU, -, hfilled', hcount'⟩ := exec_sweep_filled false (s := t') (by rwa [hcfg'])
    (by rw [hshift', hlen, hcfg']) (by rw [htc', hcfg']; exact hfilled.wf_tc)
    (by rw [hcj', hcfg']; exact hfilled.wf_cj) (by rwa [hcfg'])
  have hread : ∀ h c, h < s.cfg.nHubs → c < s.cfg.nCh →
      u.readTc h c = t.readTc h c ∧ u.readCj h c = t.readCj h c := by
    intro h c hh hc
    have hcapture := captureOf_lt hc
    obtain ⟨hline, -⟩ := (entryOfLine_eq_iff hcapture).2 ⟨hh, hc, rfl, rfl⟩
    obtain ⟨ecj, etc⟩ := hfilled.filled h c hh hc hcapture
    have hstored : t'.readTc h c = t.readTc h c := by rw [State.readTc, State.readTc, htc', hcfg', hcfg]
    have hagain := hfilled'.filled h c
    rw [hcfg', hframes _ hcapture _ hline, hstored, etc, retainedTc_retainedTc] at hagain
    obtain ⟨ecj', etc'⟩ := hagain hh hc hcapture
    exact ⟨etc'.trans etc.symm, ecj'.trans ecj.symm⟩
  have hvalid : u.countValid = t.countValid :=
    countValid_congr (hcfgU.trans (hcfg'.trans hcfg.symm)) fun h c hh hc => (hread h c (hcfg ▸ hh) (hcfg ▸ hc)).1
  exact ⟨u, hrun₂, hread, by rw [hcount', hcount, hvalid]⟩

/-! ### The read commands -/

/-- The word of a command that names an entry, field by field (R70): no two of the three fields share a bit. -/
theorem packWord_entry {op hub ch : Nat} (hop : op < 16) (hhub : hub < 16) (hch : ch < 16) :
    packWord op hub ch false =
      BitVec.ofNat 16 (op <<< 12) ||| BitVec.ofNat 16 hub <<< 8 ||| BitVec.ofNat 16 ch <<< 4 := by
  have hopHub : op <<< 12 ||| hub <<< 8 = (op * 16 + hub) <<< 8 := by
    rw [← Nat.shiftLeft_add_eq_or_of_lt (by omega)]
    omega
  have hlow : (op * 16 + hub) <<< 8 ||| ch <<< 4 = op * 4096 + hub * 256 + ch * 16 := by
    rw [← Nat.shiftLeft_add_eq_or_of_lt (by omega)]
    omega
  apply BitVec.eq_of_toNat_eq
  rw [toNat_packWord hop hhub hch, Bool.toNat_false, Nat.add_zero, ← hlow, ← hopHub]
  simp only [BitVec.toNat_or, BitVec.toNat_shiftLeft, BitVec.toNat_ofNat]
  congr <;> omega

/-- Settles O15: the shared answer of the read commands, given the thermocouple Reading. -/
theorem rdtcCAnswersTheStoredReading : Obligations.RdtcCAnswersTheStoredReading := fun _ _ _ =>
  ⟨fun hh hc => exec_rdtcC_of_has hh hc, fun h => exec_of_lacked (i := .rdtcC _ _) h,
    packWord_entry (op := 2) (by decide), fun h => readTc_of_empty (congrArg State.tc h) _ _⟩

/-- Settles O16: the shared answer of the read commands, given the converted thermocouple Reading. -/
theorem rdtcFAnswersTheConvertedReading : Obligations.RdtcFAnswersTheConvertedReading := fun _ _ _ =>
  ⟨fun hh hc => fahrenheit_eq _ ▸ exec_rdtcF_of_has hh hc, fun h => exec_of_lacked (i := .rdtcF _ _) h,
    packWord_entry (op := 3) (by decide)⟩

/-- Settles O17: the shared answer of the read commands, given the junction Reading. -/
theorem rdcjCAnswersTheStoredReading : Obligations.RdcjCAnswersTheStoredReading := fun _ _ _ =>
  ⟨fun hh hc => exec_rdcjC_of_has hh hc, fun h => exec_of_lacked (i := .rdcjC _ _) h,
    packWord_entry (op := 4) (by decide)⟩

/-- Settles O18: the shared answer of the read commands, given the converted junction Reading. -/
theorem rdcjFAnswersTheConvertedReading : Obligations.RdcjFAnswersTheConvertedReading := fun _ _ _ =>
  ⟨fun hh hc => fahrenheit_eq _ ▸ exec_rdcjF_of_has hh hc, fun h => exec_of_lacked (i := .rdcjF _ _) h,
    packWord_entry (op := 5) (by decide)⟩

end Sys2Proof.Proofs
end

section
/-! PROOFS. The Aggregator: when `AVGCJ` answers the mean and when it rejects (spec/43_aggregator.md R160 to R163), the
mean's range (R162), and that the thermocouple half is never read (R166). -/

namespace Sys2Proof.Proofs

open Sys2Proof.Machine Sys2Proof.Laws

/-! ### The answer for a hub -/

theorem implausible_iff {r : Reading} : implausible r = true ↔ r < -10 ∨ 100 < r := by
  rw [implausible, Bool.or_eq_true, decide_eq_true_iff, decide_eq_true_iff]

/-- The rejection condition names a channel of the instance (R160, R161). -/
theorem any_implausible_iff {s : State} {hub : Nat} : (s.hubJunctions hub).any implausible = true ↔
    ∃ c < s.cfg.nCh, s.readCj hub c < -10 ∨ 100 < s.readCj hub c := by
  simp only [State.hubJunctions, List.any_map, List.any_eq_true, List.mem_range, Function.comp_apply, implausible_iff]

theorem sum_hubJunctions (s : State) (hub : Nat) :
    (s.hubJunctions hub).sum = ∑ c ∈ Finset.range s.cfg.nCh, s.readCj hub c :=
  (Multiset.sum_coe _).symm

theorem averageCj_of_implausible {s : State} {hub : Nat}
    (h : ∃ c < s.cfg.nCh, s.readCj hub c < -10 ∨ 100 < s.readCj hub c) :
    s.averageCj hub = s.cfg.junctionOutOfRange := if_pos (any_implausible_iff.2 h)

section
variable {s : State} {hub : Nat} (h : ∀ c < s.cfg.nCh, -10 ≤ s.readCj hub c ∧ s.readCj hub c ≤ 100)
include h

theorem averageCj_of_plausible :
    s.averageCj hub = (∑ c ∈ Finset.range s.cfg.nCh, s.readCj hub c) / s.cfg.nCh := by
  have hnone : ¬ (s.hubJunctions hub).any implausible = true := by
    rw [any_implausible_iff]
    rintro ⟨c, hc, hlow | hhigh⟩
    · exact hlow.not_ge (h c hc).1
    · exact hhigh.not_ge (h c hc).2
  rw [State.averageCj, if_neg hnone, sum_hubJunctions]

/-- R162: a mean lies between the bounds that every term keeps; that there is a term at all is a legal instance's. -/
theorem averageCj_mem_plausible_range (hl : s.cfg.legal = true) :
    -10 ≤ s.averageCj hub ∧ s.averageCj hub ≤ 100 := by
  have hpos : (0 : Reading) < s.cfg.nCh := Nat.cast_pos.2 (nCh_pos hl)
  have hlow := (Finset.range s.cfg.nCh).card_nsmul_le_sum (s.readCj hub) (-10)
    fun c hc => (h c (Finset.mem_range.1 hc)).1
  have hhigh := (Finset.range s.cfg.nCh).sum_le_card_nsmul (s.readCj hub) 100
    fun c hc => (h c (Finset.mem_range.1 hc)).2
  rw [Finset.card_range, nsmul_eq_mul, mul_comm] at hlow hhigh
  rw [averageCj_of_plausible h]
  exact ⟨(le_div_iff₀ hpos).2 hlow, (div_le_iff₀ hpos).2 hhigh⟩

end

/-! ### AVGCJ.C and AVGCJ.F -/

/-- The word of a command that names a hub alone: its channel field is 0 (R72). -/
theorem packWord_hub {op hub : Nat} (hop : op < 16) (hhub : hub < 16) :
    packWord op hub 0 false = BitVec.ofNat 16 (op <<< 12) ||| BitVec.ofNat 16 hub <<< 8 := by
  rw [packWord_entry hop hhub (by decide)]
  exact BitVec.or_zero

/-- Settles O19: the shared answer of the read commands, given the average. -/
theorem avgcjCAnswersTheMeanOrRejects : Obligations.AvgcjCAnswersTheMeanOrRejects := fun _ _ =>
  ⟨fun hh h => averageCj_of_plausible h ▸ exec_avgcjC_of_has hh,
    fun hh h => averageCj_of_implausible h ▸ exec_avgcjC_of_has hh,
    fun h => exec_of_lacked (i := .avgcjC _) h, packWord_hub (op := 6) (by decide)⟩

/-- Settles O20: the shared answer of the read commands, given the converted average. -/
theorem avgcjFConvertsTheAverage : Obligations.AvgcjFConvertsTheAverage := by
  refine fun s hub => ⟨?_, ?_, fun h => exec_of_lacked (i := .avgcjF _) h, packWord_hub (op := 7) (by decide)⟩
  · rintro hh h r rfl
    rw [exec_avgcjF_of_has hh, averageCj_of_plausible h, fahrenheit_eq]
    rfl
  · rintro hh h r rfl
    rw [exec_avgcjF_of_has hh, averageCj_of_implausible h, fahrenheit_eq]
    rfl

/-- Settles O21: the range of the mean lies below every sentinel (R29). -/
theorem meanLiesInThePlausibleRange : Obligations.MeanLiesInThePlausibleRange := by
  intro s hub hl hh h
  obtain ⟨hlow, hhigh⟩ := averageCj_mem_plausible_range h hl
  have hbelow : s.averageCj hub < s.cfg.sentinelMin :=
    calc s.averageCj hub ≤ 100 := hhigh
      _ < 2047.75 := by norm_num
      _ < s.cfg.sentinelMin := lt_sentinelMin_of_legal hl
  exact ⟨_, _, exec_avgcjC_of_has hh, rfl, hlow, hhigh, decide_eq_false hbelow.not_ge⟩

/-! ### The thermocouple half -/

/-- An answer about a hub carries the thermocouple half along untouched. -/
theorem answerHub_withTc (hub : Nat) (r : Reading) (s : State) (m : Memory) :
    answerHub hub r { s with tc := m } = { answerHub hub r s with tc := m } := by
  obtain hh | hh := lt_or_ge hub s.cfg.nHubs
  · rw [answerHub_of_has hh, answerHub_of_has (s := { s with tc := m }) hh]
    rfl
  · rw [answerHub_of_lacks hh, answerHub_of_lacks (s := { s with tc := m }) hh]
    rfl

/-- R166: the average is a function of the configuration and the junction half. -/
theorem averageCj_withTc (hub : Nat) (s : State) (m : Memory) :
    State.averageCj { s with tc := m } hub = s.averageCj hub := rfl

theorem exec_avgcjC (hub : Nat) (s : State) :
    exec (.avgcjC hub) s = .next (answerHub hub (s.averageCj hub) s) := rfl

theorem exec_avgcjF (hub : Nat) (s : State) :
    exec (.avgcjF hub) s = .next (answerHub hub (fahrenheit (s.averageCj hub)) s) := rfl

/-- Settles O24: both states are given the same average as an answer. -/
theorem averageIgnoresThermocouples : Obligations.AverageIgnoresThermocouples := by
  refine fun s m hub => ⟨⟨_, exec_avgcjC hub s, ?_⟩, ⟨_, exec_avgcjF hub s, ?_⟩⟩
  · rw [exec_avgcjC, averageCj_withTc, answerHub_withTc]
  · rw [exec_avgcjF, averageCj_withTc, answerHub_withTc]

end Sys2Proof.Proofs
end


section
/-! PROOFS. The block has no exception (spec/60_exceptions.md R170, R177): every edge of a legal instance has a next state.
What breaks off a running SWEEP is a reset (spec/70_reset_and_hazards.md R190, R192). -/

namespace Sys2Proof.Proofs

open Sys2Proof.Machine

/-! ### A reset in a running sweep -/

theorem seqTicks_cfg (n : Nat) (s : State) : (seqTicks n s).cfg = s.cfg := by
  induction n generalizing s with
  | zero => rfl
  | succ n ih => exact (ih (seqTick s)).trans (seqTick_cfg s)

/-- R190: the whole state of R20 is at its reset value. -/
theorem resetTick_block (s : State) : (resetTick s).block = (State.resetOf s.cfg).block := rfl

/-- Settles O11: the reset tick comes where only ticks that neither answer nor touch the configuration have run. -/
theorem resetStopsARunningSweep : Obligations.ResetStopsARunningSweep := by
  intro s ow k hl hk hr ha
  obtain ⟨-, hin⟩ := seqTicks_sweep ow hl
  have hcfg : (seqTicks k (acceptSweep ow s)).cfg = s.cfg := seqTicks_cfg k _
  have hsilent : (seqTicks k (acceptSweep ow s)).responses = s.responses :=
    seqTicks_responses k fun j hj => (hin j (by rw [sweepTicks_sub_one] at hk; omega)).2
  refine ⟨_, exec_sweep_of_reset ow hl hk hr ha, ?_, rfl, hsilent, hcfg, rfl⟩
  exact (resetTick_block _).trans (congrArg (fun c => (State.resetOf c).block) hcfg)

/-! ### No abort path -/

theorem exec_isNext (i : Instr) (s : State) : ∃ t, exec i s = .next t := by
  obtain ⟨ow, rfl⟩ | hi := sweep_or_not i
  · exact ⟨_, exec_sweep ow s⟩
  · obtain ⟨r, hr⟩ := exec_of_not_sweep hi s
    exact ⟨_, hr⟩

theorem firstTick_isNext (i : Instr) (s : State) : ∃ t, firstTick i s = .next t := by
  obtain ⟨ow, rfl⟩ | hi := sweep_or_not i
  · exact ⟨acceptSweep ow s, rfl⟩
  · rw [firstTick_of_not_sweep hi]
    exact exec_isNext i s

section
variable {run : Instr → State → Host.Outcome State Fault Refusal} (hrun : ∀ i s, ∃ t, run i s = .next t)
include hrun

theorem acceptCommand_isNext (s : State) : ∃ t, acceptCommand run s = .next t := by
  cases hc : s.turn.command with
  | none => exact ⟨_, acceptCommand_of_quiet hc⟩
  | some w =>
    cases hd : decode w with
    | ok i =>
      rw [acceptCommand_of_ok hc hd]
      exact hrun i s.beginTick
    | reject r => exact ⟨_, acceptCommand_of_reject hc hd⟩

/-- However accepted commands are run, if each has a next state then so has every edge of a legal instance. -/
theorem edge_isNext {s : State} (hl : s.cfg.legal = true) : ∃ t, edge run s = .next t := by
  cases ha : s.turn.asserts with
  | true => exact ⟨_, edge_of_reset hl ha⟩
  | false =>
    by_cases hp : s.phase = .idle
    · rw [edge_of_idle hl ha hp]
      exact acceptCommand_isNext hrun s
    · exact ⟨_, edge_of_busy hl ha hp⟩

end

/-- Settles O13: the only refusal of an edge is an illegal instance, and no command ends in a fault. -/
theorem legalInstanceAlwaysSteps : Obligations.LegalInstanceAlwaysSteps := fun _ hl =>
  ⟨edge_isNext exec_isNext hl, edge_isNext firstTick_isNext hl⟩

end Sys2Proof.Proofs
end


section
/-! PROOFS. The output pins at a reset tick (spec/70_reset_and_hazards.md R191): the reset law of each piece of the
observation and of the outside world, at the edge the reset wins. -/

namespace Sys2Proof.Proofs

open Sys2Proof.Machine

/-- Settles O10: an edge with `rst = 1` is the reset tick, whose drives are the only pin events. -/
theorem resetTickMovesThePinsToTheirResetValues : Obligations.ResetTickMovesThePinsToTheirResetValues := by
  intro s hl ha
  exact ⟨resetTick s, edge_of_reset hl ha, resetTick_pinHistory s, resetTick_host s, resetTick_lines s,
    resetTick_sampleNo s, resetTick_tickNo s⟩

end Sys2Proof.Proofs
end
